-- ==== Sys2Proof/Word.lean ====
section
/-! DEFINITION. The bit-vector types of the core (00_scope.md R6, R7): bytes, 32-bit words, 5-bit register
indices. Arithmetic on them is BitVec's, modulo 2 to the width, as R7 says; `signed(v)` of the spec is
`BitVec.toInt` and `unsigned(v)` is `BitVec.toNat`. -/

namespace Sys2Proof

/-- One byte of memory. -/
abbrev Byte := BitVec 8

/-- A register value, an address, an instruction word: XLEN = 32 (R6). -/
abbrev Word := BitVec 32

/-- A register index: a 5-bit unsigned field that names x0 to x31 directly (R19, R76). -/
abbrev Reg := BitVec 5

end Sys2Proof
end

