-- ==== Sys2Proof/Config.lean ====
section
/-! DEFINITION. The implementation parameters of 00_scope.md R6. The four fixed ones are constants here. The
rest are launch inputs of a run (70_reset_and_hazards.md R186): a `Params` record, which State carries and no
step changes, so that a statement about every state is a statement about every value of them (log 1). -/

namespace Sys2Proof

namespace Config

/-- DATA_OFFSET: the first address of the data region (R6, R42). -/
def dataOffset : Nat := 0x10000000

/-- LOW_SIZE: how many bytes the low region has (R6, R42; 90_conflicts.md C3). -/
def lowSize : Nat := 4096

/-- TRAP_WORD: the one word that is the exit trap (R6, R79). -/
def trapWord : Word := 0xFFFFFFFF

/-- SHIFT_MASK: how many low bits of x[rs2] are the shift amount (R6, R116). The spec defines no other value. -/
def shiftMask : Nat := 5

end Config

/-- DIV_OVERFLOW: what div and rem do for -2^31 by -1 (R6, R127, R128). -/
inductive DivOverflowPolicy where
  /-- raise DivOverflow; the spec's default -/
  | fault
  /-- div gives 0x80000000 and rem gives 0 -/
  | riscv
deriving DecidableEq, Repr

/-- The parameters that R6 leaves open or gives an alternative to. -/
structure Params where
  /-- MEM_SIZE: bytes of the physical buffer, both regions together -/
  memSize : Nat
  /-- DATA_SPAN: bytes of the data segment that the halt snapshot scans (R160) -/
  dataSpan : Nat
  /-- DUMP_WORDS: data words in the halt dump (R161) -/
  dumpWords : Nat
  /-- DIV_OVERFLOW -/
  divOverflow : DivOverflowPolicy
  /-- ALLOW_MISALIGNED (R48) -/
  allowMisaligned : Bool
  /-- ADMIT_UNNAMED (R81) -/
  admitUnnamed : Bool
deriving DecidableEq, Repr

/-- The bounds R6 and 93_implementation_defined.md part 2 put on the parameters. -/
def Params.wf (p : Params) : Bool :=
  decide (Config.lowSize ≤ p.memSize)
    && decide (p.memSize ≤ Config.lowSize + (2 ^ 32 - Config.dataOffset))
    && decide (p.dataSpan % 4 = 0)
    && decide (p.dataSpan ≤ p.memSize - Config.lowSize)

end Sys2Proof
end

