-- ==== Sys2Proof/Syntax.lean ====
section
/-! DEFINITION. The instructions: one constructor per row of opcode_table.json, the 31 rows of
30_encoding.md R78 and the exit trap of R79. An operand is what its field holds: a register index, a 12-bit
signed displacement (I and S formats), a 13-bit or 21-bit signed byte offset whose bit 0 is not encoded (B and
J formats), or the 20 upper bits (U format). -/

namespace Sys2Proof

inductive Instr where
  -- R family (41_r_alu.md)
  | add (rd rs1 rs2 : Reg)
  | sub (rd rs1 rs2 : Reg)
  | sll (rd rs1 rs2 : Reg)
  | slt (rd rs1 rs2 : Reg)
  | xor (rd rs1 rs2 : Reg)
  | srl (rd rs1 rs2 : Reg)
  | sra (rd rs1 rs2 : Reg)
  | or (rd rs1 rs2 : Reg)
  | and (rd rs1 rs2 : Reg)
  | mul (rd rs1 rs2 : Reg)
  | div (rd rs1 rs2 : Reg)
  | rem (rd rs1 rs2 : Reg)
  -- I-type ALU family (42_i_alu.md)
  | addi (rd rs1 : Reg) (imm : BitVec 12)
  | andi (rd rs1 : Reg) (imm : BitVec 12)
  | ori (rd rs1 : Reg) (imm : BitVec 12)
  -- loads (43_loads.md)
  | lb (rd rs1 : Reg) (imm : BitVec 12)
  | lh (rd rs1 : Reg) (imm : BitVec 12)
  | lw (rd rs1 : Reg) (imm : BitVec 12)
  | ld (rd rs1 : Reg) (imm : BitVec 12)
  -- jump and link register (47_jumps.md)
  | jalr (rd rs1 : Reg) (imm : BitVec 12)
  -- stores (44_stores.md)
  | sb (rs1 rs2 : Reg) (imm : BitVec 12)
  | sh (rs1 rs2 : Reg) (imm : BitVec 12)
  | sw (rs1 rs2 : Reg) (imm : BitVec 12)
  | sd (rs1 rs2 : Reg) (imm : BitVec 12)
  -- branches (45_branches.md)
  | beq (rs1 rs2 : Reg) (off : BitVec 13)
  | bne (rs1 rs2 : Reg) (off : BitVec 13)
  | blt (rs1 rs2 : Reg) (off : BitVec 13)
  | bge (rs1 rs2 : Reg) (off : BitVec 13)
  -- upper immediates (46_upper.md)
  | lui (rd : Reg) (imm : BitVec 20)
  | auipc (rd : Reg) (imm : BitVec 20)
  -- jump and link (47_jumps.md)
  | jal (rd : Reg) (off : BitVec 21)
  -- the exit trap (60_exceptions.md)
  | exitTrap
deriving DecidableEq, Repr

end Sys2Proof
end

