-- ==== Sys2Proof/WellFormed.lean ====
section
/-! DEFINITION. Which instruction terms have an encoding: a branch or jump offset is even, since its bit 0 is not
encoded and is 0 (30_encoding.md R68, R70, R73, R75). Every other operand fills its field whole. -/

namespace Sys2Proof

/-- Bit 0 of an offset is 0. -/
def evenOffset {n : Nat} (off : BitVec n) : Bool := !off.getLsbD 0

/-- The instruction has an encoding. -/
def Instr.wf : Instr → Bool
  | .add _ _ _ | .sub _ _ _ | .sll _ _ _ | .slt _ _ _ | .xor _ _ _ | .srl _ _ _ => true
  | .sra _ _ _ | .or _ _ _ | .and _ _ _ | .mul _ _ _ | .div _ _ _ | .rem _ _ _ => true
  | .addi _ _ _ | .andi _ _ _ | .ori _ _ _ => true
  | .lb _ _ _ | .lh _ _ _ | .lw _ _ _ | .ld _ _ _ | .jalr _ _ _ => true
  | .sb _ _ _ | .sh _ _ _ | .sw _ _ _ | .sd _ _ _ => true
  | .beq _ _ off | .bne _ _ off | .blt _ _ off | .bge _ _ off => evenOffset off
  | .lui _ _ | .auipc _ _ => true
  | .jal _ off => evenOffset off
  | .exitTrap => true

end Sys2Proof
end

