-- ==== Sys2Proof/Decode.lean ====
section
/-! DEFINITION. Instruction decode and encode (30_encoding.md). The decoder is the case tree of R85, the encoder
puts the fields of R65 to R70 together, and `opcodeTable` is the list of match and mask values of R78; that the
three agree is stated in Certificates/. -/

namespace Sys2Proof

/-! ### The fields of a word (R64) -/

def opcodeOf (w : Word) : BitVec 7 := w.extractLsb' 0 7
def rdOf (w : Word) : Reg := w.extractLsb' 7 5
def funct3Of (w : Word) : BitVec 3 := w.extractLsb' 12 3
def rs1Of (w : Word) : Reg := w.extractLsb' 15 5
def rs2Of (w : Word) : Reg := w.extractLsb' 20 5
def funct7Of (w : Word) : BitVec 7 := w.extractLsb' 25 7

/-- imm[11:0] of the I format (R66). -/
def immIField (w : Word) : BitVec 12 := w.extractLsb' 20 12

/-- imm[11:5] and imm[4:0] of the S format (R67). -/
def immSField (w : Word) : BitVec 12 := w.extractLsb' 25 7 ++ w.extractLsb' 7 5

/-- The byte offset of the B format: IR[31], IR[7], IR[30:25], IR[11:8], 0 (R68, R73). -/
def immBField (w : Word) : BitVec 13 :=
  w.extractLsb' 31 1 ++ w.extractLsb' 7 1 ++ w.extractLsb' 25 6 ++ w.extractLsb' 8 4 ++ 0#1

/-- imm[31:12] of the U format (R69). -/
def immUField (w : Word) : BitVec 20 := w.extractLsb' 12 20

/-- The byte offset of the J format: IR[31], IR[19:12], IR[20], IR[30:21], 0 (R70, R75). -/
def immJField (w : Word) : BitVec 21 :=
  w.extractLsb' 31 1 ++ w.extractLsb' 12 8 ++ w.extractLsb' 20 1 ++ w.extractLsb' 21 10 ++ 0#1

/-! ### The major opcodes (R77) -/

def opR : BitVec 7 := 0b0110011
def opImm : BitVec 7 := 0b0010011
def opLoad : BitVec 7 := 0b0000011
def opJalr : BitVec 7 := 0b1100111
def opStore : BitVec 7 := 0b0100011
def opBranch : BitVec 7 := 0b1100011
def opLui : BitVec 7 := 0b0110111
def opAuipc : BitVec 7 := 0b0010111
def opJal : BitVec 7 := 0b1101111

/-- The opcodes of R77's table: a word with another opcode is a no-op, unless it is the trap word. -/
def knownOpcodes : List (BitVec 7) :=
  [opR, opImm, opLoad, opJalr, opStore, opBranch, opLui, opAuipc, opJal]

/-! ### The decoder (R84, R85) -/

/-- What a word is (R84): one of the 32 rows of the table, an unknown opcode that runs as a no-op (R80), or a
known opcode whose funct3 or funct7 select no row (R81). -/
inductive Decoded where
  | instr (i : Instr)
  | nopUnknown
  | illegal
deriving DecidableEq, Repr

/-- Opcode 0110011: keyed by funct3 and funct7. -/
def decodeR (w : Word) : Decoded :=
  let f3 := funct3Of w
  let f7 := funct7Of w
  let rd := rdOf w
  let rs1 := rs1Of w
  let rs2 := rs2Of w
  if f7 = 0b0000000 then
    if f3 = 0b000 then .instr (.add rd rs1 rs2)
    else if f3 = 0b001 then .instr (.sll rd rs1 rs2)
    else if f3 = 0b010 then .instr (.slt rd rs1 rs2)
    else if f3 = 0b100 then .instr (.xor rd rs1 rs2)
    else if f3 = 0b101 then .instr (.srl rd rs1 rs2)
    else if f3 = 0b110 then .instr (.or rd rs1 rs2)
    else if f3 = 0b111 then .instr (.and rd rs1 rs2)
    else .illegal
  else if f7 = 0b0100000 then
    if f3 = 0b000 then .instr (.sub rd rs1 rs2)
    else if f3 = 0b101 then .instr (.sra rd rs1 rs2)
    else .illegal
  else if f7 = 0b0000001 then
    if f3 = 0b000 then .instr (.mul rd rs1 rs2)
    else if f3 = 0b100 then .instr (.div rd rs1 rs2)
    else if f3 = 0b110 then .instr (.rem rd rs1 rs2)
    else .illegal
  else .illegal

/-- Opcode 0010011. -/
def decodeImm (w : Word) : Decoded :=
  let f3 := funct3Of w
  if f3 = 0b000 then .instr (.addi (rdOf w) (rs1Of w) (immIField w))
  else if f3 = 0b111 then .instr (.andi (rdOf w) (rs1Of w) (immIField w))
  else if f3 = 0b110 then .instr (.ori (rdOf w) (rs1Of w) (immIField w))
  else .illegal

/-- Opcode 0000011. -/
def decodeLoad (w : Word) : Decoded :=
  let f3 := funct3Of w
  if f3 = 0b000 then .instr (.lb (rdOf w) (rs1Of w) (immIField w))
  else if f3 = 0b001 then .instr (.lh (rdOf w) (rs1Of w) (immIField w))
  else if f3 = 0b010 then .instr (.lw (rdOf w) (rs1Of w) (immIField w))
  else if f3 = 0b011 then .instr (.ld (rdOf w) (rs1Of w) (immIField w))
  else .illegal

/-- Opcode 0100011. -/
def decodeStore (w : Word) : Decoded :=
  let f3 := funct3Of w
  if f3 = 0b000 then .instr (.sb (rs1Of w) (rs2Of w) (immSField w))
  else if f3 = 0b001 then .instr (.sh (rs1Of w) (rs2Of w) (immSField w))
  else if f3 = 0b010 then .instr (.sw (rs1Of w) (rs2Of w) (immSField w))
  else if f3 = 0b011 then .instr (.sd (rs1Of w) (rs2Of w) (immSField w))
  else .illegal

/-- Opcode 1100011. -/
def decodeBranch (w : Word) : Decoded :=
  let f3 := funct3Of w
  if f3 = 0b000 then .instr (.beq (rs1Of w) (rs2Of w) (immBField w))
  else if f3 = 0b001 then .instr (.bne (rs1Of w) (rs2Of w) (immBField w))
  else if f3 = 0b100 then .instr (.blt (rs1Of w) (rs2Of w) (immBField w))
  else if f3 = 0b101 then .instr (.bge (rs1Of w) (rs2Of w) (immBField w))
  else .illegal

/-- Opcode 1100111. -/
def decodeJalr (w : Word) : Decoded :=
  if funct3Of w = 0b000 then .instr (.jalr (rdOf w) (rs1Of w) (immIField w)) else .illegal

/-- R85 with every row admitted: the trap word first (R79), then dispatch on IR[6:0] (R77). -/
def decodeWord (w : Word) : Decoded :=
  if w = Config.trapWord then .instr .exitTrap
  else
    let op := opcodeOf w
    if op = opR then decodeR w
    else if op = opImm then decodeImm w
    else if op = opLoad then decodeLoad w
    else if op = opStore then decodeStore w
    else if op = opBranch then decodeBranch w
    else if op = opJalr then decodeJalr w
    else if op = opLui then .instr (.lui (rdOf w) (immUField w))
    else if op = opAuipc then .instr (.auipc (rdOf w) (immUField w))
    else if op = opJal then .instr (.jal (rdOf w) (immJField w))
    else .nopUnknown

/-- The rows the source names or describes; the other 18 are those that ADMIT_UNNAMED = false makes ILLEGAL
(R81; 92_eei_decisions.md D1). -/
def Instr.inSource : Instr → Bool
  | .add _ _ _ | .mul _ _ _ | .div _ _ _ | .rem _ _ _ => true
  | .sub _ _ _ | .sll _ _ _ | .slt _ _ _ | .xor _ _ _ | .srl _ _ _ | .sra _ _ _ => false
  | .or _ _ _ | .and _ _ _ => false
  | .addi _ _ _ => true
  | .andi _ _ _ | .ori _ _ _ => false
  | .lb _ _ _ | .lh _ _ _ | .ld _ _ _ => false
  | .lw _ _ _ | .jalr _ _ _ => true
  | .sb _ _ _ | .sh _ _ _ | .sd _ _ _ => false
  | .sw _ _ _ => true
  | .beq _ _ _ | .bne _ _ _ => true
  | .blt _ _ _ | .bge _ _ _ => false
  | .lui _ _ | .auipc _ _ | .jal _ _ | .exitTrap => true

/-- `classify` under the parameters: R84 and R85, with R81's ADMIT_UNNAMED. -/
def classify (p : Params) (w : Word) : Decoded :=
  match decodeWord w with
  | .instr i => if p.admitUnnamed || i.inSource then .instr i else .illegal
  | .nopUnknown => .nopUnknown
  | .illegal => .illegal

/-! ### Words and bytes (little-endian, R47) -/

/-- The word whose byte at the lowest address is `b0`. -/
def wordOfBytes (b0 b1 b2 b3 : Byte) : Word := b3 ++ b2 ++ b1 ++ b0

/-- The four bytes of a word, lowest address first. -/
def bytesOfWord (w : Word) : List Byte :=
  [w.extractLsb' 0 8, w.extractLsb' 8 8, w.extractLsb' 16 8, w.extractLsb' 24 8]

/-- Decode the first instruction of a byte string and give the bytes after it; every instruction is four bytes
(R63), so a shorter string has none. -/
def decodeBytes : List Byte → Option (Decoded × List Byte)
  | b0 :: b1 :: b2 :: b3 :: rest => some (decodeWord (wordOfBytes b0 b1 b2 b3), rest)
  | _ => none

/-- The instruction that the decoder reads from the word `w` of the opcode table, given in `nbits` bits; bits
above them are 0. -/
def decodeTableWord (nbits w : Nat) : Option Instr :=
  match decodeBytes (bytesOfWord (BitVec.ofNat 32 (w % 2 ^ nbits))) with
  | some (.instr i, _) => some i
  | some (.nopUnknown, _) => none
  | some (.illegal, _) => none
  | none => none

/-! ### The encoder (R65 to R70, with the key fields of R78) -/

def encR (f7 : BitVec 7) (rs2 rs1 : Reg) (f3 : BitVec 3) (rd : Reg) (op : BitVec 7) : Word :=
  f7 ++ rs2 ++ rs1 ++ f3 ++ rd ++ op

def encI (imm : BitVec 12) (rs1 : Reg) (f3 : BitVec 3) (rd : Reg) (op : BitVec 7) : Word :=
  imm ++ rs1 ++ f3 ++ rd ++ op

def encS (imm : BitVec 12) (rs2 rs1 : Reg) (f3 : BitVec 3) (op : BitVec 7) : Word :=
  imm.extractLsb' 5 7 ++ rs2 ++ rs1 ++ f3 ++ imm.extractLsb' 0 5 ++ op

def encB (off : BitVec 13) (rs2 rs1 : Reg) (f3 : BitVec 3) (op : BitVec 7) : Word :=
  off.extractLsb' 12 1 ++ off.extractLsb' 5 6 ++ rs2 ++ rs1 ++ f3
    ++ off.extractLsb' 1 4 ++ off.extractLsb' 11 1 ++ op

def encU (imm : BitVec 20) (rd : Reg) (op : BitVec 7) : Word := imm ++ rd ++ op

def encJ (off : BitVec 21) (rd : Reg) (op : BitVec 7) : Word :=
  off.extractLsb' 20 1 ++ off.extractLsb' 1 10 ++ off.extractLsb' 11 1 ++ off.extractLsb' 12 8 ++ rd ++ op

/-- The word of an instruction. Bit 0 of a branch or jump offset has no place in it (R68, R70). -/
def encode : Instr → Word
  | .add rd rs1 rs2 => encR 0b0000000 rs2 rs1 0b000 rd opR
  | .sub rd rs1 rs2 => encR 0b0100000 rs2 rs1 0b000 rd opR
  | .sll rd rs1 rs2 => encR 0b0000000 rs2 rs1 0b001 rd opR
  | .slt rd rs1 rs2 => encR 0b0000000 rs2 rs1 0b010 rd opR
  | .xor rd rs1 rs2 => encR 0b0000000 rs2 rs1 0b100 rd opR
  | .srl rd rs1 rs2 => encR 0b0000000 rs2 rs1 0b101 rd opR
  | .sra rd rs1 rs2 => encR 0b0100000 rs2 rs1 0b101 rd opR
  | .or rd rs1 rs2 => encR 0b0000000 rs2 rs1 0b110 rd opR
  | .and rd rs1 rs2 => encR 0b0000000 rs2 rs1 0b111 rd opR
  | .mul rd rs1 rs2 => encR 0b0000001 rs2 rs1 0b000 rd opR
  | .div rd rs1 rs2 => encR 0b0000001 rs2 rs1 0b100 rd opR
  | .rem rd rs1 rs2 => encR 0b0000001 rs2 rs1 0b110 rd opR
  | .addi rd rs1 imm => encI imm rs1 0b000 rd opImm
  | .andi rd rs1 imm => encI imm rs1 0b111 rd opImm
  | .ori rd rs1 imm => encI imm rs1 0b110 rd opImm
  | .lb rd rs1 imm => encI imm rs1 0b000 rd opLoad
  | .lh rd rs1 imm => encI imm rs1 0b001 rd opLoad
  | .lw rd rs1 imm => encI imm rs1 0b010 rd opLoad
  | .ld rd rs1 imm => encI imm rs1 0b011 rd opLoad
  | .jalr rd rs1 imm => encI imm rs1 0b000 rd opJalr
  | .sb rs1 rs2 imm => encS imm rs2 rs1 0b000 opStore
  | .sh rs1 rs2 imm => encS imm rs2 rs1 0b001 opStore
  | .sw rs1 rs2 imm => encS imm rs2 rs1 0b010 opStore
  | .sd rs1 rs2 imm => encS imm rs2 rs1 0b011 opStore
  | .beq rs1 rs2 off => encB off rs2 rs1 0b000 opBranch
  | .bne rs1 rs2 off => encB off rs2 rs1 0b001 opBranch
  | .blt rs1 rs2 off => encB off rs2 rs1 0b100 opBranch
  | .bge rs1 rs2 off => encB off rs2 rs1 0b101 opBranch
  | .lui rd imm => encU imm rd opLui
  | .auipc rd imm => encU imm rd opAuipc
  | .jal rd off => encJ off rd opJal
  | .exitTrap => Config.trapWord

/-! ### The opcode table (R78, R79) -/

/-- The row name of an instruction, as the table spells it. -/
def Instr.mnemonic : Instr → String
  | .add _ _ _ => "add"
  | .sub _ _ _ => "sub"
  | .sll _ _ _ => "sll"
  | .slt _ _ _ => "slt"
  | .xor _ _ _ => "xor"
  | .srl _ _ _ => "srl"
  | .sra _ _ _ => "sra"
  | .or _ _ _ => "or"
  | .and _ _ _ => "and"
  | .mul _ _ _ => "mul"
  | .div _ _ _ => "div"
  | .rem _ _ _ => "rem"
  | .addi _ _ _ => "addi"
  | .andi _ _ _ => "andi"
  | .ori _ _ _ => "ori"
  | .lb _ _ _ => "lb"
  | .lh _ _ _ => "lh"
  | .lw _ _ _ => "lw"
  | .ld _ _ _ => "ld"
  | .jalr _ _ _ => "jalr"
  | .sb _ _ _ => "sb"
  | .sh _ _ _ => "sh"
  | .sw _ _ _ => "sw"
  | .sd _ _ _ => "sd"
  | .beq _ _ _ => "beq"
  | .bne _ _ _ => "bne"
  | .blt _ _ _ => "blt"
  | .bge _ _ _ => "bge"
  | .lui _ _ => "lui"
  | .auipc _ _ => "auipc"
  | .jal _ _ => "jal"
  | .exitTrap => "EXIT_TRAP"

/-- One row of the table: the name and the values of its match and mask columns. -/
structure Row where
  mnemonic : String
  pattern : Word
  mask : Word
deriving DecidableEq, Repr

/-- A word selects a row when its bits under the mask are the row's match value (R78). -/
def Row.selects (r : Row) (w : Word) : Bool := w &&& r.mask == r.pattern

def rowsR : List Row :=
  [⟨"add", 0x00000033, 0xFE00707F⟩, ⟨"sub", 0x40000033, 0xFE00707F⟩, ⟨"sll", 0x00001033, 0xFE00707F⟩,
   ⟨"slt", 0x00002033, 0xFE00707F⟩, ⟨"xor", 0x00004033, 0xFE00707F⟩, ⟨"srl", 0x00005033, 0xFE00707F⟩,
   ⟨"sra", 0x40005033, 0xFE00707F⟩, ⟨"or", 0x00006033, 0xFE00707F⟩, ⟨"and", 0x00007033, 0xFE00707F⟩,
   ⟨"mul", 0x02000033, 0xFE00707F⟩, ⟨"div", 0x02004033, 0xFE00707F⟩, ⟨"rem", 0x02006033, 0xFE00707F⟩]

def rowsI : List Row :=
  [⟨"addi", 0x00000013, 0x0000707F⟩, ⟨"andi", 0x00007013, 0x0000707F⟩, ⟨"ori", 0x00006013, 0x0000707F⟩,
   ⟨"lb", 0x00000003, 0x0000707F⟩, ⟨"lh", 0x00001003, 0x0000707F⟩, ⟨"lw", 0x00002003, 0x0000707F⟩,
   ⟨"ld", 0x00003003, 0x0000707F⟩, ⟨"jalr", 0x00000067, 0x0000707F⟩]

def rowsSB : List Row :=
  [⟨"sb", 0x00000023, 0x0000707F⟩, ⟨"sh", 0x00001023, 0x0000707F⟩, ⟨"sw", 0x00002023, 0x0000707F⟩,
   ⟨"sd", 0x00003023, 0x0000707F⟩, ⟨"beq", 0x00000063, 0x0000707F⟩, ⟨"bne", 0x00001063, 0x0000707F⟩,
   ⟨"blt", 0x00004063, 0x0000707F⟩, ⟨"bge", 0x00005063, 0x0000707F⟩]

def rowsUJ : List Row :=
  [⟨"lui", 0x00000037, 0x0000007F⟩, ⟨"auipc", 0x00000017, 0x0000007F⟩, ⟨"jal", 0x0000006F, 0x0000007F⟩]

/-- The 31 rows of R78. -/
def opcodeTable : List Row := rowsR ++ rowsI ++ rowsSB ++ rowsUJ

end Sys2Proof
end

