-- ==== Sys2Proof/Machine/Reset.lean ====
section
/-! DEFINITION. The launch parameters that State.reset carries. R6 leaves MEM_SIZE, DATA_SPAN and DUMP_WORDS open,
so the three numbers are the model's own (DESIGN CHOICE, log 1) and no statement rests on them: a statement
about reset is about `State.resetWith p` for every p. -/

namespace Sys2Proof.Machine

/-- MEM_SIZE = LOW_SIZE + 0x1000, the size 95_test_vectors.md uses; the whole data region is scanned and dumped;
the other three are the spec's defaults (R6). -/
def resetParams : Params :=
  { memSize := Config.lowSize + 0x1000
    dataSpan := 0x1000
    dumpWords := 0x400
    divOverflow := .fault
    allowMisaligned := true
    admitUnnamed := true }

end Sys2Proof.Machine
end

