-- ==== Sys2Proof/Machine/State.lean ====
section
/-! DEFINITION. The state of the core (10_state.md), the ways a step can stop, and the state after reset (R34,
R177). Plain data throughout. -/

namespace Sys2Proof.Machine

/-- The faults of 60_exceptions.md R162, in its order. Each stops the core with nothing of the instruction
committed (R103). All are safe: where the source leaves behaviour undefined or unsaid, the model stops as the
spec says (92_eei_decisions.md D6, D8, D9, D12, D23). -/
inductive Fault where
  /-- raised by fetch, for any instruction: a byte at pc..pc+3 is not valid (R46); safe -/
  | fetchOutOfRange (pc : Word)
  /-- raised in decode: a known opcode whose funct3 or funct7 select no row (R81); safe -/
  | illegalEncoding (ir : Word)
  /-- raised in decode by ld and sd, always (R83, R137, R143); safe -/
  | unsupportedWidth (ir : Word)
  /-- raised in execute by div and rem on -2^31 and -1 when DIV_OVERFLOW = fault (R127, R128); safe -/
  | divOverflow (ir : Word)
  /-- raised in the memory stage by lb, lh, lw, sb, sh, sw: a byte at ea..ea+n-1 is not valid (R44, R45); safe -/
  | memOutOfRange (ea : Word) (n : Nat)
deriving DecidableEq, Repr

/-- Why a step has no outcome that the spec gives. -/
inductive Refusal where
  /-- raised by exec for an instruction that has no meaning yet (none is left); safe -/
  | notModelled (mnemonic : String)
  /-- raised by step when the run status is not Running: the core takes no step from Halted or Faulted (R33,
  R168); safe -/
  | notRunning
deriving DecidableEq, Repr

/-- The run status (R33). -/
inductive RunStatus where
  | running
  | halted
  | faulted (f : Fault)
deriving DecidableEq, Repr

/-- The memory bytes (R32), as pairs of logical address and byte: addresses strictly rising, no byte that equals
what an unlisted address reads as. Machine/Ops.lean has the operations and the check `Memory.wf`. -/
abbrev Memory := List Host.Cell

structure State where
  /-- the launch parameters (R6, R186), which no step changes -/
  params : Params
  /-- x0 to x31, x0 an ordinary register (R19, R20) -/
  regs : Vector Word 32
  /-- the program counter (R23) -/
  pc : Word
  /-- the word last fetched (R28) -/
  ir : Word
  /-- scratch latch: x[IR[19:15]], staged in decode (R29, R97) -/
  operand1 : Word
  /-- scratch latch: x[IR[24:20]], staged in decode (R29, R97) -/
  operand2 : Word
  /-- scratch latch: IR[11:7], staged in decode (R29, R97) -/
  dest : Reg
  /-- scratch latch: what write-back commits (R29, R99, R100) -/
  aluResult : Word
  /-- the skip-increment flag (R30) -/
  skip : Bool
  /-- the cycle counter, unbounded (R31) -/
  cycles : Nat
  /-- the two byte arrays low and data (R32) -/
  mem : Memory
  /-- the run status (R33) -/
  status : RunStatus
deriving DecidableEq, Repr

/-- Reset with launch parameters `p` and no program image (R34, R177): everything zero, Running. -/
def State.resetWith (p : Params) : State :=
  { params := p
    regs := Vector.replicate 32 0
    pc := 0
    ir := 0
    operand1 := 0
    operand2 := 0
    dest := 0
    aluResult := 0
    skip := false
    cycles := 0
    mem := []
    status := .running }

/-- The machine right after reset, with the parameters of log 1. -/
def State.reset : State := State.resetWith resetParams

end Sys2Proof.Machine
end

