-- ==== Sys2Proof/Machine/Ops.lean ====
section
/-! DEFINITION. The operations that meanings are built from: registers, memory (20_memory.md), the five stages of
40_cycle.md, and how a run stops (60_exceptions.md). -/

namespace Sys2Proof.Machine

/-- What every meaning and every step answers. -/
abbrev Outcome := Host.Outcome State Fault Refusal

/-! ### Registers (R19, R20) -/

/-- Read x[r]; x0 is read like any other. -/
def State.reg (s : State) (r : Reg) : Word := s.regs[r.toNat]'r.isLt

/-- Write x[r]; x0 is written like any other (R20). -/
def State.setReg (s : State) (r : Reg) (v : Word) : State :=
  { s with regs := s.regs.set r.toNat v r.isLt }

/-! ### Memory bytes -/

/-- What a byte that neither the image nor a store has written reads as (R34; D7). -/
def Memory.blank : Byte := 0

/-- The canonical form: addresses strictly rising, no blank byte listed. -/
def Memory.wf : Memory → Bool
  | [] => true
  | [c] => c.2 != Memory.blank
  | c :: d :: rest => c.2 != Memory.blank && decide (c.1 < d.1) && Memory.wf (d :: rest)

/-- The byte at an address. -/
def Memory.peek (m : Memory) (a : Nat) : Byte :=
  match m with
  | [] => Memory.blank
  | c :: rest => if c.1 = a then c.2 else Memory.peek rest a

/-- Set the byte at an address, keeping the canonical form. -/
def Memory.poke (m : Memory) (a : Nat) (v : Byte) : Memory :=
  match m with
  | [] => if v = Memory.blank then [] else [(a, v)]
  | c :: rest =>
    if a < c.1 then (if v = Memory.blank then c :: rest else (a, v) :: c :: rest)
    else if a = c.1 then (if v = Memory.blank then rest else (a, v) :: rest)
    else c :: Memory.poke rest a v

/-- Bytes a..a+n-1, byte a+k in bits 8k+7:8k of the result: little-endian (R44, R47). For n ≤ 4. -/
def Memory.readLe (m : Memory) (a : Nat) : Nat → Word
  | 0 => 0
  | n + 1 => Memory.readLe m a n ||| ((Memory.peek m (a + n)).setWidth 32 <<< (8 * n))

/-- Set byte a+k to bits 8k+7:8k of v, for k < n: little-endian (R45, R47). -/
def Memory.writeLe (m : Memory) (a : Nat) (v : Word) : Nat → Memory
  | 0 => m
  | n + 1 => Memory.poke (Memory.writeLe m a v n) (a + n) (v.extractLsb' (8 * n) 8)

/-! ### Addresses (R42, R43) -/

/-- A valid address: in the low region or in the data region (R43). The band between them is not valid. -/
def valid (p : Params) (a : Nat) : Bool :=
  decide (a < Config.lowSize)
    || (decide (Config.dataOffset ≤ a) && decide (a - Config.dataOffset < p.memSize - Config.lowSize))

/-- The index of an address in the physical buffer (R42). -/
def bufferIndex (a : Nat) : Nat :=
  if a < Config.dataOffset then a else a - Config.dataOffset + Config.lowSize

/-- Every byte a..a+n-1 is valid and none lies past 0xFFFFFFFF (R44, R45). -/
def rangeValid (p : Params) (a : Word) (n : Nat) : Bool :=
  (List.range n).all fun k => decide (a.toNat + k ≤ 0xFFFFFFFF) && valid p (a.toNat + k)

/-- The check before an access of n bytes: the range is valid, and with ALLOW_MISALIGNED = false the address is a
multiple of n as well (R48). -/
def accessOk (p : Params) (a : Word) (n : Nat) : Bool :=
  (p.allowMisaligned || a.toNat % n == 0) && rangeValid p a n

/-- MemRead (R44), zero-extended to a word. -/
def State.memRead (s : State) (a : Word) (n : Nat) : Except Fault Word :=
  if accessOk s.params a n then .ok (s.mem.readLe a.toNat n) else .error (.memOutOfRange a n)

/-- MemWrite (R45): every byte is checked before any is written. -/
def State.memWrite (s : State) (a : Word) (n : Nat) (v : Word) : Except Fault State :=
  if accessOk s.params a n then .ok { s with mem := s.mem.writeLe a.toNat v n }
  else .error (.memOutOfRange a n)

/-- FetchRead at pc (R46). -/
def State.fetchRead (s : State) : Except Fault Word :=
  if accessOk s.params s.pc 4 then .ok (s.mem.readLe s.pc.toNat 4) else .error (.fetchOutOfRange s.pc)

/-! ### The stages (40_cycle.md) -/

/-- The end of stage 1 (R96): IR holds the fetched word. -/
def State.latch (s : State) (w : Word) : State := { s with ir := w }

/-- Stage 2 (R97): both source registers are read and the destination index is staged, before anything of the
instruction is written (R98). `skip` starts clear (R30, R102). -/
def State.stage (s : State) (rs1 rs2 rd : Reg) : State :=
  { s with operand1 := s.reg rs1, operand2 := s.reg rs2, dest := rd, skip := false }

/-- Set alu_result (R99, R100; in decode the provisional value of stores and branches, R97). -/
def State.setAlu (s : State) (v : Word) : State := { s with aluResult := v }

/-- Execute of a taken branch or a jump: write pc and set skip (R99). -/
def State.jumpTo (s : State) (target : Word) : State := { s with pc := target, skip := true }

/-- The link write of jal and jalr: x[dest] gets pc + 4, but nothing is written when dest is 0 (R153, R155). -/
def State.link (s : State) : State := if s.dest = 0 then s else s.setReg s.dest (s.pc + 4)

/-- Stage 5, the commit: x[dest] gets alu_result, dest = 0 included (R101). -/
def State.commit (s : State) : State := s.setReg s.dest s.aluResult

/-- Stage 5, the rest: pc advances by 4 unless skip is set, skip is cleared, cycles counts one (R101). -/
def State.retire (s : State) : State :=
  { s with pc := if s.skip then s.pc else s.pc + 4, skip := false, cycles := s.cycles + 1 }

/-- An unknown opcode (R80): scratch state is left alone and stage 5 runs without a commit. -/
def State.nopStep (s : State) : State := State.retire { s with skip := false }

/-! ### Stopping (60_exceptions.md) -/

/-- Raise a fault (R162): the core stops and nothing of the instruction is committed (R103). No vector, cause or
saved pc exists (R157, R167). This is the core's one exception entry; there is no return from it (R168). -/
def raise (f : Fault) : Outcome := .fault f

/-- What the core rests in after fault f: the state before the step, with the run status Faulted(f) (R103). -/
def State.faulted (s : State) (f : Fault) : State := { s with status := .faulted f }

/-- The exit trap (R158): the run status becomes Halted and nothing else changes. -/
def State.halt (s : State) : State := { s with status := .halted }

/-- Place a word at pc, as the program loader would have (R178); for State.withFetchWord. -/
def State.placeAtPc (s : State) (w : Word) : State := { s with mem := s.mem.writeLe s.pc.toNat w 4 }

end Sys2Proof.Machine
end

