-- ==== Sys2Proof/Machine/Operands.lean ====
section
/-! DEFINITION. Operand values: the 32-bit immediates (30_encoding.md R71 to R75), and what decode extracts as rs1,
rs2 and rd from the words of the formats that have immediate bits in those places (R64, R97). -/

namespace Sys2Proof.Machine

/-! ### Immediates -/

/-- The I immediate, sign-extended for andi and ori too (R71). -/
def immI (f : BitVec 12) : Word := f.signExtend 32

/-- The S immediate (R72). -/
def immS (f : BitVec 12) : Word := f.signExtend 32

/-- The B immediate, a byte offset (R73). -/
def immB (f : BitVec 13) : Word := f.signExtend 32

/-- The U immediate: the field in bits 31:12, zeros below (R74). -/
def immU (f : BitVec 20) : Word := f ++ 0#12

/-- The J immediate, a byte offset (R75). -/
def immJ (f : BitVec 21) : Word := f.signExtend 32

/-! ### Register fields that are immediate bits

Decode stages x[IR[19:15]], x[IR[24:20]] and IR[11:7] for every kind, whether or not the format has those fields
(R97, R98). -/

/-- IR[24:20] of an I-format word is imm[4:0] (R66). -/
def rs2InI (f : BitVec 12) : Reg := f.extractLsb' 0 5

/-- IR[11:7] of an S-format word is imm[4:0] (R67). -/
def rdInS (f : BitVec 12) : Reg := f.extractLsb' 0 5

/-- IR[11:7] of a B-format word is imm[4:1], imm[11] (R68). -/
def rdInB (f : BitVec 13) : Reg := f.extractLsb' 1 4 ++ f.extractLsb' 11 1

/-- IR[19:15] of a U-format word is bits 7:3 of the 20-bit field (R69). -/
def rs1InU (f : BitVec 20) : Reg := f.extractLsb' 3 5

/-- IR[24:20] of a U-format word is bits 12:8 of the 20-bit field (R69). -/
def rs2InU (f : BitVec 20) : Reg := f.extractLsb' 8 5

/-- IR[19:15] of a J-format word is imm[19:15] (R70). -/
def rs1InJ (f : BitVec 21) : Reg := f.extractLsb' 15 5

/-- IR[24:20] of a J-format word is imm[4:1], imm[11] (R70). -/
def rs2InJ (f : BitVec 21) : Reg := f.extractLsb' 1 4 ++ f.extractLsb' 11 1

/-! ### Addresses and targets -/

/-- The one addressing mode: register plus displacement, modulo 2^32 (R133, R139). -/
def effectiveAddress (base disp : Word) : Word := base + disp

/-- The target of jalr: bit 0 of the sum is cleared (R155). -/
def jalrTarget (base disp : Word) : Word := (base + disp) &&& 0xFFFFFFFE

/-- The shift amount: the low SHIFT_MASK bits of the second operand (R116). -/
def shamt (b : Word) : Nat := (b.extractLsb' 0 Config.shiftMask).toNat

/-! ### Widths of data accesses (R49) -/

inductive Width where
  | byte
  | half
  | word
deriving DecidableEq, Repr

/-- How many bytes. -/
def Width.bytes : Width → Nat
  | .byte => 1
  | .half => 2
  | .word => 4

/-- A loaded value as a register value: bytes and half-words are sign-extended (R49, R134 to R136). -/
def Width.extend (n : Width) (v : Word) : Word :=
  match n with
  | .byte => (v.setWidth 8).signExtend 32
  | .half => (v.setWidth 16).signExtend 32
  | .word => v

end Sys2Proof.Machine
end

