-- ==== Sys2Proof/Machine/Flags.lean ====
section
/-! DEFINITION. The core has no condition codes, status flags or predicate registers (10_state.md R26), so no
instruction computes a flag. What stands in their place is here: the predicates a branch applies to its two
operands (45_branches.md) and slt's 0 or 1. The one boolean of the state, skip, is written by the stage
operations of Machine/Ops.lean. -/

namespace Sys2Proof.Machine

/-- beq (R146). -/
def condEq (a b : Word) : Bool := a == b

/-- bne (R147). -/
def condNe (a b : Word) : Bool := a != b

/-- blt: signed (R148). -/
def condLt (a b : Word) : Bool := decide (a.toInt < b.toInt)

/-- bge: signed (R149). -/
def condGe (a b : Word) : Bool := decide (b.toInt ≤ a.toInt)

/-- slt's value: 1 if the signed compare holds, else 0 (R120). -/
def setIf (c : Bool) : Word := if c then 1 else 0

end Sys2Proof.Machine
end

