-- ==== Sys2Proof/Machine/Branches.lean ====
section
/-! DEFINITION. The branch family (45_branches.md): beq, bne, blt, bge. -/

namespace Sys2Proof.Machine

/-- The template of R145: decode leaves the offset in alu_result; if the predicate holds, pc gets the branch's own
address plus it. -/
def execBranch (cond : Word → Word → Bool) (rs1 rs2 : Reg) (off : BitVec 13) (s : State) : Outcome :=
  let t := (s.stage rs1 rs2 (rdInB off)).setAlu (immB off)
  .next (if cond t.operand1 t.operand2 then t.jumpTo (t.pc + t.aluResult) else t).retire

/-- R146. -/
def execBeq (rs1 rs2 : Reg) (off : BitVec 13) (s : State) : Outcome := execBranch condEq rs1 rs2 off s

/-- R147. -/
def execBne (rs1 rs2 : Reg) (off : BitVec 13) (s : State) : Outcome := execBranch condNe rs1 rs2 off s

/-- R148. -/
def execBlt (rs1 rs2 : Reg) (off : BitVec 13) (s : State) : Outcome := execBranch condLt rs1 rs2 off s

/-- R149. -/
def execBge (rs1 rs2 : Reg) (off : BitVec 13) (s : State) : Outcome := execBranch condGe rs1 rs2 off s

end Sys2Proof.Machine
end

