-- ==== Sys2Proof/Machine/Alu.lean ====
section
/-! DEFINITION. The ALU: the result of each operation on two words (41_r_alu.md, 42_i_alu.md). -/

namespace Sys2Proof.Machine

/-- R117, R130. -/
def aluAdd (a b : Word) : Word := a + b

/-- R118. -/
def aluSub (a b : Word) : Word := a - b

/-- R119: bits shifted out are lost. -/
def aluSll (a b : Word) : Word := a <<< shamt b

/-- R120. -/
def aluSlt (a b : Word) : Word := setIf (condLt a b)

/-- R121. -/
def aluXor (a b : Word) : Word := a ^^^ b

/-- R122: zeros fill from the left. -/
def aluSrl (a b : Word) : Word := a >>> shamt b

/-- R123: bit 31 fills from the left. -/
def aluSra (a b : Word) : Word := a.sshiftRight (shamt b)

/-- R124, R132. -/
def aluOr (a b : Word) : Word := a ||| b

/-- R125, R131. -/
def aluAnd (a b : Word) : Word := a &&& b

/-- R126: the low 32 bits of the product. -/
def aluMul (a b : Word) : Word := a * b

/-- The case that DIV_OVERFLOW decides: -2^31 by -1 (R127, R128). -/
def divOverflows (a b : Word) : Bool := a == 0x80000000 && b == 0xFFFFFFFF

/-- R127: zero for a zero divisor, else the signed quotient rounded toward zero; none where DivOverflow is
raised. -/
def aluDiv (p : DivOverflowPolicy) (a b : Word) : Option Word :=
  if b = 0 then some 0
  else if divOverflows a b then
    match p with
    | .fault => none
    | .riscv => some 0x80000000
  else some (BitVec.ofInt 32 (a.toInt.tdiv b.toInt))

/-- R128: zero for a zero divisor, else the remainder of the quotient rounded toward zero; none where DivOverflow
is raised. -/
def aluRem (p : DivOverflowPolicy) (a b : Word) : Option Word :=
  if b = 0 then some 0
  else if divOverflows a b then
    match p with
    | .fault => none
    | .riscv => some 0
  else some (BitVec.ofInt 32 (a.toInt - a.toInt.tdiv b.toInt * b.toInt))

end Sys2Proof.Machine
end

