-- ==== Sys2Proof/Machine/IAlu.lean ====
section
/-! DEFINITION. The I-type ALU family (42_i_alu.md): addi, andi, ori. -/

namespace Sys2Proof.Machine

/-- The template of R129: stage, compute from x[rs1] and the sign-extended immediate, commit to rd (rd = 0
included), advance. -/
def execI (f : Word → Word → Word) (rd rs1 : Reg) (imm : BitVec 12) (s : State) : Outcome :=
  let t := s.stage rs1 (rs2InI imm) rd
  .next (t.setAlu (f t.operand1 (immI imm))).commit.retire

/-- R130. -/
def execAddi (rd rs1 : Reg) (imm : BitVec 12) (s : State) : Outcome := execI aluAdd rd rs1 imm s

/-- R131. -/
def execAndi (rd rs1 : Reg) (imm : BitVec 12) (s : State) : Outcome := execI aluAnd rd rs1 imm s

/-- R132. -/
def execOri (rd rs1 : Reg) (imm : BitVec 12) (s : State) : Outcome := execI aluOr rd rs1 imm s

end Sys2Proof.Machine
end

