-- ==== Sys2Proof/Machine/Jumps.lean ====
section
/-! DEFINITION. The jump family (47_jumps.md): jal, jalr. Their only register write is the link (R156), and they
leave alu_result as it was (log 5). -/

namespace Sys2Proof.Machine

/-- R153. -/
def execJal (rd : Reg) (off : BitVec 21) (s : State) : Outcome :=
  let t := s.stage (rs1InJ off) (rs2InJ off) rd
  .next (t.link.jumpTo (t.pc + immJ off)).retire

/-- R155: the target is computed from operand1, read in decode, so rd = rs1 jumps through the old value. -/
def execJalr (rd rs1 : Reg) (imm : BitVec 12) (s : State) : Outcome :=
  let t := s.stage rs1 (rs2InI imm) rd
  .next (t.link.jumpTo (jalrTarget t.operand1 (immI imm))).retire

end Sys2Proof.Machine
end

