-- ==== Sys2Proof/Machine/Loads.lean ====
section
/-! DEFINITION. The load family (43_loads.md): lb, lh, lw, and ld, which faults. -/

namespace Sys2Proof.Machine

/-- The template of R133: the address goes to alu_result, then the extended value read there; commit to rd (rd = 0
included), advance. -/
def execLoad (n : Width) (rd rs1 : Reg) (imm : BitVec 12) (s : State) : Outcome :=
  let t := s.stage rs1 (rs2InI imm) rd
  let u := t.setAlu (effectiveAddress t.operand1 (immI imm))
  match u.memRead u.aluResult n.bytes with
  | .ok v => .next (u.setAlu (n.extend v)).commit.retire
  | .error f => raise f

/-- R134. -/
def execLb (rd rs1 : Reg) (imm : BitVec 12) (s : State) : Outcome := execLoad .byte rd rs1 imm s

/-- R135. -/
def execLh (rd rs1 : Reg) (imm : BitVec 12) (s : State) : Outcome := execLoad .half rd rs1 imm s

/-- R136. -/
def execLw (rd rs1 : Reg) (imm : BitVec 12) (s : State) : Outcome := execLoad .word rd rs1 imm s

/-- R137: UnsupportedWidth(IR), raised in decode (R97), whatever the operands. -/
def execLd (_rd _rs1 : Reg) (_imm : BitVec 12) (s : State) : Outcome := raise (.unsupportedWidth s.ir)

end Sys2Proof.Machine
end

