-- ==== Sys2Proof/Machine/RAlu.lean ====
section
/-! DEFINITION. The R family (41_r_alu.md): twelve register-register operations. -/

namespace Sys2Proof.Machine

/-- The template of R116: stage, compute, commit to rd (rd = 0 included), advance. -/
def execR (f : Word → Word → Word) (rd rs1 rs2 : Reg) (s : State) : Outcome :=
  let t := s.stage rs1 rs2 rd
  .next (t.setAlu (f t.operand1 t.operand2)).commit.retire

/-- R116 for div and rem, whose ALU operation may answer that DivOverflow is raised (R127, R128). -/
def execRDiv (f : DivOverflowPolicy → Word → Word → Option Word) (rd rs1 rs2 : Reg) (s : State) : Outcome :=
  let t := s.stage rs1 rs2 rd
  match f t.params.divOverflow t.operand1 t.operand2 with
  | some v => .next (t.setAlu v).commit.retire
  | none => raise (.divOverflow t.ir)

/-- R117. -/
def execAdd (rd rs1 rs2 : Reg) (s : State) : Outcome := execR aluAdd rd rs1 rs2 s

/-- R118. -/
def execSub (rd rs1 rs2 : Reg) (s : State) : Outcome := execR aluSub rd rs1 rs2 s

/-- R119. -/
def execSll (rd rs1 rs2 : Reg) (s : State) : Outcome := execR aluSll rd rs1 rs2 s

/-- R120. -/
def execSlt (rd rs1 rs2 : Reg) (s : State) : Outcome := execR aluSlt rd rs1 rs2 s

/-- R121. -/
def execXor (rd rs1 rs2 : Reg) (s : State) : Outcome := execR aluXor rd rs1 rs2 s

/-- R122. -/
def execSrl (rd rs1 rs2 : Reg) (s : State) : Outcome := execR aluSrl rd rs1 rs2 s

/-- R123. -/
def execSra (rd rs1 rs2 : Reg) (s : State) : Outcome := execR aluSra rd rs1 rs2 s

/-- R124. -/
def execOr (rd rs1 rs2 : Reg) (s : State) : Outcome := execR aluOr rd rs1 rs2 s

/-- R125. -/
def execAnd (rd rs1 rs2 : Reg) (s : State) : Outcome := execR aluAnd rd rs1 rs2 s

/-- R126. -/
def execMul (rd rs1 rs2 : Reg) (s : State) : Outcome := execR aluMul rd rs1 rs2 s

/-- R127. -/
def execDiv (rd rs1 rs2 : Reg) (s : State) : Outcome := execRDiv aluDiv rd rs1 rs2 s

/-- R128. -/
def execRem (rd rs1 rs2 : Reg) (s : State) : Outcome := execRDiv aluRem rd rs1 rs2 s

end Sys2Proof.Machine
end

