-- ==== Sys2Proof/Machine/Stores.lean ====
section
/-! DEFINITION. The store family (44_stores.md): sb, sh, sw, and sd, which faults. -/

namespace Sys2Proof.Machine

/-- The template of R139: decode leaves the displacement in alu_result, execute adds the base to it, the memory
stage writes the low bytes of operand2 there; no commit, advance. -/
def execStore (n : Width) (rs1 rs2 : Reg) (imm : BitVec 12) (s : State) : Outcome :=
  let t := (s.stage rs1 rs2 (rdInS imm)).setAlu (immS imm)
  let u := t.setAlu (effectiveAddress t.operand1 t.aluResult)
  match u.memWrite u.aluResult n.bytes u.operand2 with
  | .ok v => .next v.retire
  | .error f => raise f

/-- R140. -/
def execSb (rs1 rs2 : Reg) (imm : BitVec 12) (s : State) : Outcome := execStore .byte rs1 rs2 imm s

/-- R141. -/
def execSh (rs1 rs2 : Reg) (imm : BitVec 12) (s : State) : Outcome := execStore .half rs1 rs2 imm s

/-- R142. -/
def execSw (rs1 rs2 : Reg) (imm : BitVec 12) (s : State) : Outcome := execStore .word rs1 rs2 imm s

/-- R143: UnsupportedWidth(IR), raised in decode (R97), whatever the operands. -/
def execSd (_rs1 _rs2 : Reg) (_imm : BitVec 12) (s : State) : Outcome := raise (.unsupportedWidth s.ir)

end Sys2Proof.Machine
end

