-- ==== Sys2Proof/Machine/Trap.lean ====
section
/-! DEFINITION. The exit trap (60_exceptions.md R158). -/

namespace Sys2Proof.Machine

/-- R158: the run status becomes Halted; stages 3 to 5 do not run, so pc, cycles, registers and memory stay. -/
def execExitTrap (s : State) : Outcome := .next s.halt

end Sys2Proof.Machine
end

