-- ==== Sys2Proof/Machine/Upper.lean ====
section
/-! DEFINITION. The upper-immediate family (46_upper.md): lui, auipc. -/

namespace Sys2Proof.Machine

/-- The template of R150, for a result computed from the instruction's own address and the immediate. -/
def execUpper (f : Word → Word → Word) (rd : Reg) (imm : BitVec 20) (s : State) : Outcome :=
  let t := s.stage (rs1InU imm) (rs2InU imm) rd
  .next (t.setAlu (f t.pc (immU imm))).commit.retire

/-- R151. -/
def execLui (rd : Reg) (imm : BitVec 20) (s : State) : Outcome := execUpper (fun _ v => v) rd imm s

/-- R152. -/
def execAuipc (rd : Reg) (imm : BitVec 20) (s : State) : Outcome := execUpper (fun pc v => pc + v) rd imm s

end Sys2Proof.Machine
end

