-- ==== Sys2Proof/Machine/Step.lean ====
section
/-! DEFINITION. One step (40_cycle.md R102): fetch, classify, and the instruction's meaning. -/

namespace Sys2Proof.Machine

/-- A step from a Running state after the fetch of w: the word is latched in IR and classified. -/
def stepWord (s : State) (w : Word) : Host.Outcome State Fault Refusal :=
  match classify s.params w with
  | .instr i => exec i (s.latch w)
  | .nopUnknown => .next (s.latch w).nopStep
  | .illegal => raise (.illegalEncoding w)

/-- R102. The core takes a step only from Running (R33, R168). -/
def step (s : State) : Host.Outcome State Fault Refusal :=
  match s.status with
  | .running =>
    match s.fetchRead with
    | .ok w => stepWord s w
    | .error f => raise f
  | .halted => .refused .notRunning
  | .faulted _ => .refused .notRunning

/-- s with the table word w (nbits bits, zeros above) at pc, where step fetches. It stands for the program load of
R178, which puts the image into memory before the first step (log 2). -/
def State.withFetchWord (s : State) (nbits w : Nat) : State :=
  s.placeAtPc (BitVec.ofNat 32 (w % 2 ^ nbits))

end Sys2Proof.Machine
end

