-- ==== Sys2Proof/Machine/Loader.lean ====
section
/-! DEFINITION. The program load (70_reset_and_hazards.md R178 to R181): what the outside does before the first
step. A run is fixed by its parameters and its image (R186). -/

namespace Sys2Proof.Machine

/-- Write one (address, word) pair of the machine-code file; none where a byte of it is not valid (R178, R179). -/
def loadPair (s : State) (pair : Word × Word) : Option State :=
  match s.memWrite pair.1 4 pair.2 with
  | .ok t => some t
  | .error _ => none

/-- Write the pairs in file order, so that a later one overwrites an earlier one (R178). -/
def loadPairs (s : State) : List (Word × Word) → Option State
  | [] => some s
  | pair :: rest =>
    match loadPair s pair with
    | some t => loadPairs t rest
    | none => none

/-- The state of a run before its first step: reset, then the load (R181). Parameters outside R6's bounds and an
image with a pair that is not valid start no run (R179, R186). -/
def launch (p : Params) (image : List (Word × Word)) : Option State :=
  if p.wf then loadPairs (State.resetWith p) image else none

/-- The load of one byte. -/
def loadByte (s : State) (cell : Word × Byte) : Option State :=
  if valid s.params cell.1.toNat then some { s with mem := s.mem.poke cell.1.toNat cell.2 } else none

/-- The load of a byte image, the other form R178 allows (and R180 recommends where data is narrower than a
word). -/
def loadByteList (s : State) : List (Word × Byte) → Option State
  | [] => some s
  | cell :: rest =>
    match loadByte s cell with
    | some t => loadByteList t rest
    | none => none

/-- A run launched from a byte image. -/
def launchBytes (p : Params) (image : List (Word × Byte)) : Option State :=
  if p.wf then loadByteList (State.resetWith p) image else none

end Sys2Proof.Machine
end

