-- ==== Sys2Proof/Machine/Observation.lean ====
section
/-! DEFINITION. What the host side reads at the exit trap (60_exceptions.md R159 to R161): the data snapshot and the
dump, functions of the halted state (R187). The spelling of hex fields and data lines is not specified
(91_not_in_source.md N22), so values stand here, not text; the one spelling given, of a register line, is
`registerLine`. -/

namespace Sys2Proof.Machine

/-- The address of word k of the data segment's grid (R160). -/
def dataWordAddress (k : Nat) : Word := BitVec.ofNat 32 (Config.dataOffset + 4 * k)

/-- The word there, none where it is not readable. -/
def State.dataWord (s : State) (k : Nat) : Option Word :=
  match s.memRead (dataWordAddress k) 4 with
  | .ok v => some v
  | .error _ => none

/-- One line of the snapshot: none for a word equal to 0 (R160). -/
def State.snapshotLine (s : State) (k : Nat) : Option (Word × Word) :=
  match s.dataWord k with
  | some v => if v = 0 then none else some (dataWordAddress k, v)
  | none => none

/-- The persisted snapshot: (address, value) of every non-zero word in the first DATA_SPAN bytes, in increasing
order (R160). -/
def State.snapshot (s : State) : List (Word × Word) :=
  (List.range (s.params.dataSpan / 4)).filterMap s.snapshotLine

/-- The dump (R161): the registers as signed integers, x0 first, then DUMP_WORDS words of the data segment. -/
structure Dump where
  registers : List Int
  dataWords : List (Option Word)
deriving DecidableEq, Repr

def State.dump (s : State) : Dump :=
  { registers := (List.range 32).map fun i => (s.reg (BitVec.ofNat 5 i)).toInt
    dataWords := (List.range s.params.dumpWords).map s.dataWord }

/-- The text of a register line of the dump (R161). -/
def State.registerLine (s : State) (i : Nat) : String :=
  "R" ++ toString i ++ " = " ++ toString (s.reg (BitVec.ofNat 5 i)).toInt

/-- What the host side takes from a halted core, the snapshot before the dump (R159); nothing from a core that is
not halted. -/
def State.haltOutput (s : State) : Option (List (Word × Word) × Dump) :=
  match s.status with
  | .halted => some (s.snapshot, s.dump)
  | .running => none
  | .faulted _ => none

end Sys2Proof.Machine
end

