-- ==== Sys2Proof/Safety.lean ====
section
/-! DEFINITION. The terms of claims: the invariant of a core in use, what a run comes to (70_reset_and_hazards.md
R187), and the frames of instructions. -/

namespace Sys2Proof.Machine

/-! ### The invariant -/

/-- Every listed byte of memory is at a valid address (R43). -/
def Memory.inRange (p : Params) (m : Memory) : Bool := m.all fun c => valid p c.1

/-- What holds of every state a run reaches: parameters within bounds (R6), memory in its canonical form and
within the two regions (R43), an even pc (R25), and a clear skip flag (R30). -/
def State.inv (s : State) : Bool :=
  s.params.wf && s.mem.wf && Memory.inRange s.params s.mem && !s.pc.getLsbD 0 && !s.skip

/-! ### Runs -/

/-- The code R162 numbers a fault by; the hardware records it nowhere. -/
def Fault.code : Fault → Nat
  | .fetchOutOfRange _ => 1
  | .illegalEncoding _ => 2
  | .unsupportedWidth _ => 3
  | .divOverflow _ => 4
  | .memOutOfRange _ _ => 5

/-- The word fetched in this step is in IR, or the previous word after a fetch fault (R102). -/
def State.latchFetched (s : State) : State :=
  match s.fetchRead with
  | .ok w => s.latch w
  | .error _ => s

/-- Where the core rests after a step is asked of it: the next state, or the state before the step with the run
status Faulted (R103), or the same state where it takes no step (R168). -/
def State.rest (s : State) : State :=
  match step s with
  | .next t => t
  | .fault f => s.latchFetched.faulted f
  | .refused _ => s

/-- Where the core rests after k of them. -/
def State.restAfter : Nat → State → State
  | 0, s => s
  | k + 1, s => State.restAfter k s.rest

/-- A run ends normally exactly when the trap word is fetched (R187). -/
def EndsNormally (s : State) : Prop := ∃ k, (State.restAfter k s).status = .halted

/-- A run that reached a fault has not ended normally (R187). -/
def EndsInFault (s : State) (f : Fault) : Prop := ∃ k, (State.restAfter k s).status = .faulted f

/-! ### What an instruction may touch -/

/-- The one register an instruction may write (R22): rd of the R, I, load and U forms, x0 included; of jal and jalr
only where it is not x0. -/
def destination : Instr → Option Reg
  | .add rd _ _ | .sub rd _ _ | .sll rd _ _ | .slt rd _ _ | .xor rd _ _ | .srl rd _ _ => some rd
  | .sra rd _ _ | .or rd _ _ | .and rd _ _ | .mul rd _ _ | .div rd _ _ | .rem rd _ _ => some rd
  | .addi rd _ _ | .andi rd _ _ | .ori rd _ _ => some rd
  | .lb rd _ _ | .lh rd _ _ | .lw rd _ _ => some rd
  | .lui rd _ | .auipc rd _ => some rd
  | .jal rd _ | .jalr rd _ _ => if rd = 0 then none else some rd
  | .ld _ _ _ | .sb _ _ _ | .sh _ _ _ | .sw _ _ _ | .sd _ _ _ => none
  | .beq _ _ _ | .bne _ _ _ | .blt _ _ _ | .bge _ _ _ | .exitTrap => none

/-- The bytes a load reads in state s: first address and count (R133). -/
def loadRange (s : State) : Instr → Option (Word × Nat)
  | .lb _ rs1 imm => some (effectiveAddress (s.reg rs1) (immI imm), 1)
  | .lh _ rs1 imm => some (effectiveAddress (s.reg rs1) (immI imm), 2)
  | .lw _ rs1 imm => some (effectiveAddress (s.reg rs1) (immI imm), 4)
  | .add _ _ _ | .sub _ _ _ | .sll _ _ _ | .slt _ _ _ | .xor _ _ _ | .srl _ _ _ => none
  | .sra _ _ _ | .or _ _ _ | .and _ _ _ | .mul _ _ _ | .div _ _ _ | .rem _ _ _ => none
  | .addi _ _ _ | .andi _ _ _ | .ori _ _ _ | .lui _ _ | .auipc _ _ => none
  | .ld _ _ _ | .sb _ _ _ | .sh _ _ _ | .sw _ _ _ | .sd _ _ _ => none
  | .beq _ _ _ | .bne _ _ _ | .blt _ _ _ | .bge _ _ _ => none
  | .jal _ _ | .jalr _ _ _ | .exitTrap => none

/-- The bytes a store writes in state s: first address and count (R139). -/
def storeRange (s : State) : Instr → Option (Word × Nat)
  | .sb rs1 _ imm => some (effectiveAddress (s.reg rs1) (immS imm), 1)
  | .sh rs1 _ imm => some (effectiveAddress (s.reg rs1) (immS imm), 2)
  | .sw rs1 _ imm => some (effectiveAddress (s.reg rs1) (immS imm), 4)
  | .add _ _ _ | .sub _ _ _ | .sll _ _ _ | .slt _ _ _ | .xor _ _ _ | .srl _ _ _ => none
  | .sra _ _ _ | .or _ _ _ | .and _ _ _ | .mul _ _ _ | .div _ _ _ | .rem _ _ _ => none
  | .addi _ _ _ | .andi _ _ _ | .ori _ _ _ | .lui _ _ | .auipc _ _ => none
  | .lb _ _ _ | .lh _ _ _ | .lw _ _ _ | .ld _ _ _ | .sd _ _ _ => none
  | .beq _ _ _ | .bne _ _ _ | .blt _ _ _ | .bge _ _ _ => none
  | .jal _ _ | .jalr _ _ _ | .exitTrap => none

/-! ### Frames -/

/-- Every byte of memory reads as before. -/
def SameMemory (s t : State) : Prop := ∀ b, t.mem.peek b = s.mem.peek b

/-- Every byte outside a..a+n-1 reads as before. -/
def SameMemoryOutside (s t : State) (a n : Nat) : Prop :=
  ∀ b, b < a ∨ a + n ≤ b → t.mem.peek b = s.mem.peek b

/-- Every register reads as before. -/
def SameRegisters (s t : State) : Prop := ∀ r, t.reg r = s.reg r

/-- Every register but rd reads as before. -/
def SameRegistersBut (s t : State) (rd : Reg) : Prop := ∀ r, r ≠ rd → t.reg r = s.reg r

/-- What no completing instruction changes: the launch parameters, the run status, and IR, which only fetch
writes. -/
def SameControl (s t : State) : Prop := t.params = s.params ∧ t.status = s.status ∧ t.ir = s.ir

/-- The instruction completed with the next pc given: skip is clear and cycles counted one (R101). -/
def Retired (s t : State) (nextPc : Word) : Prop :=
  t.pc = nextPc ∧ t.skip = false ∧ t.cycles = s.cycles + 1 ∧ SameControl s t

/-- The latches decode stages (R97). -/
def Staged (s t : State) (rs1 rs2 rd : Reg) : Prop :=
  t.operand1 = s.reg rs1 ∧ t.operand2 = s.reg rs2 ∧ t.dest = rd

/-- The latches no stage of an instruction wrote. -/
def SameLatches (s t : State) : Prop :=
  t.operand1 = s.operand1 ∧ t.operand2 = s.operand2 ∧ t.dest = s.dest ∧ t.aluResult = s.aluResult

/-- The whole effect of an instruction that writes v to rd, x0 included, and nothing else a program can see. -/
def WritesOnly (s t : State) (rd : Reg) (v : Word) : Prop :=
  t.reg rd = v ∧ SameRegistersBut s t rd ∧ SameMemory s t ∧ t.aluResult = v ∧ Retired s t (s.pc + 4)

end Sys2Proof.Machine
end

