-- ==== Sys2Proof/Certificates/Slice0/Obligations.lean ====
section
/-! DEFINITION. The statements for the provers. Each docstring names the rule of the spec it formalises, or says
that it is derived. A statement about every state is a statement about every value of the launch parameters,
since State carries them. -/

open Sys2Proof Sys2Proof.Machine

/-! ### Reset and registers -/

/-- R34: every piece of processor state is zero after reset, the status is Running, and every byte reads 0, whatever
the launch parameters; State.reset is such a state. -/
def Obligations.ResetIsAllZero : Prop :=
  (∀ p : Params, ∀ s, s = State.resetWith p →
    s.pc = 0 ∧ s.ir = 0 ∧ (∀ r, s.reg r = 0) ∧ s.operand1 = 0 ∧ s.operand2 = 0 ∧ s.aluResult = 0 ∧ s.dest = 0
      ∧ s.skip = false ∧ s.cycles = 0 ∧ s.status = .running ∧ (∀ a, s.mem.peek a = 0) ∧ s.params = p)
    ∧ ∃ p : Params, p.wf = true ∧ State.reset = State.resetWith p

/-- Derived: the invariant of Safety.lean holds at reset, for every choice of parameters within bounds. -/
def Obligations.ResetMeetsInvariant : Prop :=
  (∀ p : Params, p.wf = true → (State.resetWith p).inv = true) ∧ State.reset.inv = true

/-- R19: every index names a register of its own, x0 among them (R20), and a write changes nothing else. -/
def Obligations.RegistersAreDistinct : Prop :=
  ∀ (s : State) (r : Reg) (v : Word),
    (s.setReg r v).reg r = v ∧ SameRegistersBut s (s.setReg r v) r
      ∧ s.setReg r v = { s with regs := (s.setReg r v).regs }

/-! ### Memory -/

/-- R43, R44 and R48: which accesses are allowed, in numbers. -/
def Obligations.AccessCheckIsTwoRegions : Prop :=
  ∀ (p : Params) (a : Word) (n : Nat), n = 1 ∨ n = 2 ∨ n = 4 →
    (accessOk p a n = true ↔
      (p.allowMisaligned = true ∨ a.toNat % n = 0)
        ∧ ∀ k, k < n → a.toNat + k ≤ 0xFFFFFFFF
          ∧ (a.toNat + k < 4096
              ∨ (0x10000000 ≤ a.toNat + k ∧ a.toNat + k - 0x10000000 < p.memSize - 4096)))

/-- Derived: the translation into the buffer (R42's formula), and that on valid addresses it is one to one onto the
buffer, which no rule says; it follows from R42, R43 and the bounds of R6 and is what log 7 deduces. -/
def Obligations.TranslationIsOneToOneOnValid : Prop :=
  (∀ a, a < 0x10000000 → bufferIndex a = a)
    ∧ (∀ a, 0x10000000 ≤ a → bufferIndex a = a - 0x10000000 + 4096)
    ∧ ∀ p : Params, p.wf = true →
        (∀ a, valid p a = true → a < 2 ^ 32 ∧ bufferIndex a < p.memSize)
          ∧ (∀ a b, valid p a = true → valid p b = true → bufferIndex a = bufferIndex b → a = b)
          ∧ ∀ i, i < p.memSize → ∃ a, valid p a = true ∧ bufferIndex a = i

/-- R44: MemRead is little-endian, and faults when the check fails. -/
def Obligations.MemReadIsLittleEndian : Prop :=
  ∀ (s : State) (a : Word),
    (accessOk s.params a 1 = true → s.memRead a 1 = .ok ((s.mem.peek a.toNat).setWidth 32))
      ∧ (accessOk s.params a 2 = true →
          s.memRead a 2 = .ok ((s.mem.peek (a.toNat + 1) ++ s.mem.peek a.toNat).setWidth 32))
      ∧ (accessOk s.params a 4 = true →
          s.memRead a 4 = .ok (s.mem.peek (a.toNat + 3) ++ s.mem.peek (a.toNat + 2)
            ++ s.mem.peek (a.toNat + 1) ++ s.mem.peek a.toNat))
      ∧ ∀ n, accessOk s.params a n = false → s.memRead a n = .error (.memOutOfRange a n)

/-- R45: MemWrite sets the n bytes, little-endian, and no other byte, or writes nothing and faults. -/
def Obligations.MemWriteSetsExactlyItsBytes : Prop :=
  ∀ (s : State) (a : Word) (n : Nat) (v : Word), s.mem.wf = true → n = 1 ∨ n = 2 ∨ n = 4 →
    (accessOk s.params a n = true →
      ∃ t, s.memWrite a n v = .ok t
        ∧ (∀ k, k < n → t.mem.peek (a.toNat + k) = v.extractLsb' (8 * k) 8)
        ∧ SameMemoryOutside s t a.toNat n ∧ t = { s with mem := t.mem } ∧ t.mem.wf = true)
      ∧ (accessOk s.params a n = false → s.memWrite a n v = .error (.memOutOfRange a n))

/-- R46: FetchRead is MemRead at pc, with its own fault. -/
def Obligations.FetchReadIsMemReadAtPc : Prop :=
  ∀ s : State,
    (∀ w, s.fetchRead = .ok w ↔ s.memRead s.pc 4 = .ok w)
      ∧ (∀ f, s.memRead s.pc 4 = .error f → s.fetchRead = .error (.fetchOutOfRange s.pc))

/-! ### Encoding -/

/-- R130, R117, R142, R147, R153 and others: example words of the spec decode to their instructions. -/
def Obligations.ExampleWordsDecode : Prop :=
  decodeWord 0x00500093 = .instr (.addi 1 0 5)
    ∧ decodeWord 0x402081B3 = .instr (.sub 3 1 2)
    ∧ decodeWord 0xFFC0A283 = .instr (.lw 5 1 (-4))
    ∧ decodeWord 0xFE20AFA3 = .instr (.sw 1 2 (-1))
    ∧ decodeWord 0xFE009EE3 = .instr (.bne 1 0 (-4))
    ∧ decodeWord 0xFFFFF0B7 = .instr (.lui 1 0xFFFFF)
    ∧ decodeWord 0xFF9FF06F = .instr (.jal 0 (-8))
    ∧ decodeWord 0x008280E7 = .instr (.jalr 1 5 8)
    ∧ decodeWord 0xFFFFFFFF = .instr .exitTrap
    ∧ decodeWord 0x0000007F = .nopUnknown
    ∧ decodeWord 0x02001033 = .illegal

/-- Derived from R65 to R85 (the source's round-trip law, 95_test_vectors.md V1): decoding the encoding of a
well-formed instruction gives it back, whatever its operands. -/
def Obligations.DecodeOfEncodeIsIdentity : Prop :=
  ∀ i : Instr, i.wf = true → decodeWord (encode i) = .instr i

/-- Derived: a word that decodes to an instruction is that instruction's encoding, and the instruction is
well-formed: no bit of a word is ignored and each word has one meaning. -/
def Obligations.EncodeOfDecodeIsIdentity : Prop :=
  ∀ (w : Word) (i : Instr), decodeWord w = .instr i → i.wf = true ∧ encode i = w

/-- R84 with R78, R79: the decoder is the opcode table. Each word but the trap word decodes to the row that selects
it, is ILLEGAL where its opcode is known and no row selects it, and is a no-op where its opcode is unknown. -/
def Obligations.DecoderFollowsOpcodeTable : Prop :=
  decodeWord Config.trapWord = .instr .exitTrap
    ∧ ∀ w : Word, w ≠ Config.trapWord →
        (∀ m, (∃ i, decodeWord w = .instr i ∧ i.mnemonic = m)
            ↔ ∃ r ∈ opcodeTable, r.mnemonic = m ∧ r.selects w = true)
          ∧ (decodeWord w = .illegal
              ↔ opcodeOf w ∈ knownOpcodes ∧ ∀ r ∈ opcodeTable, r.selects w = false)
          ∧ (decodeWord w = .nopUnknown ↔ opcodeOf w ∉ knownOpcodes)

/-- R78: "No two rows overlap". -/
def Obligations.OpcodeRowsNeverOverlap : Prop :=
  opcodeTable.length = 31
    ∧ opcodeTable.Pairwise fun r q => ∀ w, ¬ (r.selects w = true ∧ q.selects w = true)

/-- R81, second part: with ADMIT_UNNAMED false, the 18 rows it lists are ILLEGAL and the other rows stand; with it
true, every row stands. -/
def Obligations.UnnamedRowsFollowParameter : Prop :=
  ∀ (p : Params) (w : Word),
    (p.admitUnnamed = true → classify p w = decodeWord w)
      ∧ (p.admitUnnamed = false → ∀ i, decodeWord w = .instr i →
          classify p w =
            if i.mnemonic ∈ ["sub", "sll", "slt", "xor", "srl", "sra", "or", "and", "andi", "ori", "lb", "lh",
              "ld", "sb", "sh", "sd", "blt", "bge"] then .illegal else .instr i)

/-- R71 to R75: the value of each immediate from the bits of the word, as a number, with its range. -/
def Obligations.ImmediatesAreSignExtended : Prop :=
  ∀ w : Word,
    ((immI (immIField w)).toInt
          = ((w.toNat / 2 ^ 20 % 2 ^ 11 : Nat) : Int) - 2 ^ 11 * ((w.toNat / 2 ^ 31 : Nat) : Int)
        ∧ -2048 ≤ (immI (immIField w)).toInt ∧ (immI (immIField w)).toInt ≤ 2047)
      ∧ ((immS (immSField w)).toInt
          = ((2 ^ 5 * (w.toNat / 2 ^ 25 % 2 ^ 6) + w.toNat / 2 ^ 7 % 2 ^ 5 : Nat) : Int)
            - 2 ^ 11 * ((w.toNat / 2 ^ 31 : Nat) : Int)
        ∧ -2048 ≤ (immS (immSField w)).toInt ∧ (immS (immSField w)).toInt ≤ 2047)
      ∧ ((immB (immBField w)).toInt
          = ((2 ^ 11 * (w.toNat / 2 ^ 7 % 2) + 2 ^ 5 * (w.toNat / 2 ^ 25 % 2 ^ 6) + 2 * (w.toNat / 2 ^ 8 % 2 ^ 4) : Nat)
              : Int) - 2 ^ 12 * ((w.toNat / 2 ^ 31 : Nat) : Int)
        ∧ -4096 ≤ (immB (immBField w)).toInt ∧ (immB (immBField w)).toInt ≤ 4094)
      ∧ (immU (immUField w)).toNat = w.toNat / 2 ^ 12 * 2 ^ 12
      ∧ ((immJ (immJField w)).toInt
          = ((2 ^ 12 * (w.toNat / 2 ^ 12 % 2 ^ 8) + 2 ^ 11 * (w.toNat / 2 ^ 20 % 2) + 2 * (w.toNat / 2 ^ 21 % 2 ^ 10) : Nat)
              : Int) - 2 ^ 20 * ((w.toNat / 2 ^ 31 : Nat) : Int)
        ∧ -1048576 ≤ (immJ (immJField w)).toInt ∧ (immJ (immJField w)).toInt ≤ 1048574)

/-! ### The step -/

/-- R102: a Running core that fetches an instruction's word runs exec of that instruction on the same state with the
word in IR; the step adds nothing else, since the meaning itself advances pc. -/
def Obligations.StepRunsDecodedInstruction : Prop :=
  ∀ (s : State) (w : Word) (i : Instr), s.status = .running → s.fetchRead = .ok w →
    classify s.params w = .instr i → step s = exec i { s with ir := w }

/-- R80: a word with an unknown opcode, other than the trap word, runs as a no-op: pc advances by 4 and cycles
increments; scratch state, registers and memory stay. -/
def Obligations.UnknownOpcodeRunsAsNoOp : Prop :=
  ∀ (s : State) (w : Word), s.status = .running → s.fetchRead = .ok w → w ≠ Config.trapWord →
    opcodeOf w ∉ knownOpcodes →
      ∃ t, step s = .next t ∧ SameRegisters s t ∧ SameMemory s t ∧ SameLatches s t
        ∧ t.pc = s.pc + 4 ∧ t.cycles = s.cycles + 1 ∧ t.skip = false ∧ t.ir = w
        ∧ t.params = s.params ∧ t.status = .running

/-- R81: a known opcode whose funct3 and funct7 select no row raises IllegalEncoding(IR), and with ADMIT_UNNAMED false
so does each of the 18 rows R81 lists; nothing is committed. -/
def Obligations.IllegalWordsFault : Prop :=
  ∀ (s : State) (w : Word), s.status = .running → s.fetchRead = .ok w →
    ((opcodeOf w ∈ knownOpcodes ∧ ∀ r ∈ opcodeTable, r.selects w = false)
        ∨ (s.params.admitUnnamed = false ∧ ∃ r ∈ opcodeTable, r.selects w = true
            ∧ r.mnemonic ∈ ["sub", "sll", "slt", "xor", "srl", "sra", "or", "and", "andi", "ori", "lb", "lh",
              "ld", "sb", "sh", "sd", "blt", "bge"])) →
      step s = .fault (.illegalEncoding w)
        ∧ s.rest.status = .faulted (.illegalEncoding w) ∧ SameRegisters s s.rest ∧ SameMemory s s.rest
        ∧ s.rest.pc = s.pc ∧ s.rest.skip = s.skip ∧ s.rest.cycles = s.cycles

/-- R46 and fault 1 of R162: a fetch from an address that fails the check faults, with pc recorded. -/
def Obligations.InvalidFetchFaults : Prop :=
  ∀ s : State, s.status = .running → accessOk s.params s.pc 4 = false →
    step s = .fault (.fetchOutOfRange s.pc)

/-- R158: the trap word halts: pc, cycles, registers and memory stay, IR holds the trap word, and no step
follows. -/
def Obligations.TrapWordHalts : Prop :=
  ∀ s : State,
    (∃ t, exec .exitTrap s = .next t ∧ t = { s with status := .halted })
      ∧ (s.status = .running → s.fetchRead = .ok Config.trapWord →
          ∃ t, step s = .next t ∧ t.status = .halted ∧ t.pc = s.pc ∧ t.cycles = s.cycles
            ∧ SameRegisters s t ∧ SameMemory s t ∧ SameLatches s t ∧ t.skip = s.skip ∧ t.params = s.params
            ∧ t.ir = Config.trapWord ∧ ∀ u, step t ≠ .next u)

/-- Derived from R187 and R172: a step ends the run in Halted exactly where the trap word is fetched, and leaves the
core Running otherwise. -/
def Obligations.HaltsExactlyOnTheTrapWord : Prop :=
  ∀ s t : State, step s = .next t →
    (s.fetchRead = .ok Config.trapWord ∧ t.status = .halted)
      ∨ (s.fetchRead ≠ .ok Config.trapWord ∧ t.status = .running)

/-- R168: Halted and Faulted are final: no step is taken from either, and the core stays as it is. -/
def Obligations.StoppedCoreTakesNoStep : Prop :=
  ∀ s : State, s.status ≠ .running →
    (∀ t, step s ≠ .next t) ∧ (∀ f, step s ≠ .fault f) ∧ ∀ k, State.restAfter k s = s

/-- Derived from R9 and R84: a Running core always has an outcome of the spec, so nothing is refused. -/
def Obligations.RunningCoreIsNeverRefused : Prop :=
  ∀ s : State, s.status = .running → ∀ r, step s ≠ .refused r

/-- R162 and R166: what each fault of a step means. -/
def Obligations.FaultsComeFromTheFiveCauses : Prop :=
  ∀ (s : State) (f : Fault), step s = .fault f →
    s.status = .running
      ∧ ((accessOk s.params s.pc 4 = false ∧ f = .fetchOutOfRange s.pc)
        ∨ ∃ w, s.fetchRead = .ok w ∧ w ≠ Config.trapWord
          ∧ ((classify s.params w = .illegal ∧ f = .illegalEncoding w)
            ∨ ∃ i, classify s.params w = .instr i
              ∧ ((i.mnemonic ∈ ["ld", "sd"] ∧ f = .unsupportedWidth w)
                ∨ (i.mnemonic ∈ ["div", "rem"] ∧ s.params.divOverflow = .fault
                    ∧ s.reg (rs1Of w) = 0x80000000 ∧ s.reg (rs2Of w) = 0xFFFFFFFF ∧ f = .divOverflow w)
                ∨ ∃ a n, (loadRange s i = some (a, n) ∨ storeRange s i = some (a, n))
                    ∧ accessOk s.params a n = false ∧ f = .memOutOfRange a n)))

/-- R103: after a fault the run status is Faulted(F), and registers, memory, pc, skip and cycles are those from
before the step. -/
def Obligations.FaultCommitsNothing : Prop :=
  ∀ (s : State) (f : Fault), step s = .fault f →
    s.rest.status = .faulted f ∧ SameRegisters s s.rest ∧ SameMemory s s.rest ∧ s.rest.pc = s.pc
      ∧ s.rest.skip = s.skip ∧ s.rest.cycles = s.cycles ∧ s.rest.params = s.params

/-! ### Whole-machine rules -/

/-- Derived: the invariant of Safety.lean is kept by every step: parameters within bounds, memory canonical and
within the two regions, an even pc (R25), a clear skip flag (R30). -/
def Obligations.StepKeepsInvariant : Prop :=
  ∀ s t : State, s.inv = true → step s = .next t → t.inv = true

/-- Derived: the invariant holds at every point of every run that a launch starts. -/
def Obligations.EveryRunKeepsInvariant : Prop :=
  ∀ (p : Params) (image : List (Word × Word)) (s : State), launch p image = some s →
    ∀ k, (State.restAfter k s).inv = true

/-- R105 and R22, for registers: a step changes at most the one register that R22 names for the instruction. -/
def Obligations.OnlyTheDestinationChanges : Prop :=
  ∀ (s t : State) (w : Word), s.fetchRead = .ok w → step s = .next t → ∀ r, t.reg r ≠ s.reg r →
    ∃ i, classify s.params w = .instr i ∧ destination i = some r

/-- R100: a step changes no byte of memory but those a store instruction writes. -/
def Obligations.OnlyStoresChangeMemory : Prop :=
  ∀ (s t : State) (w : Word), s.fetchRead = .ok w → step s = .next t → ∀ b, t.mem.peek b ≠ s.mem.peek b →
    ∃ i a n, classify s.params w = .instr i ∧ storeRange s i = some (a, n) ∧ a.toNat ≤ b ∧ b < a.toNat + n

/-- R31, R101 and R23: a completed instruction counts one cycle and leaves skip clear, and pc is 4 further on unless
the instruction is a branch or a jump; only the trap counts none. -/
def Obligations.CompletionCountsOneCycle : Prop :=
  ∀ (s t : State) (w : Word), s.fetchRead = .ok w → step s = .next t →
    (w = Config.trapWord → t.status = .halted ∧ t.cycles = s.cycles ∧ t.pc = s.pc)
      ∧ (w ≠ Config.trapWord → t.status = .running ∧ t.cycles = s.cycles + 1 ∧ t.skip = false
          ∧ (t.pc = s.pc + 4
              ∨ ∃ i, classify s.params w = .instr i
                ∧ i.mnemonic ∈ ["beq", "bne", "blt", "bge", "jal", "jalr"]))

/-- R97 and R98: decode reads x[IR[19:15]] and x[IR[24:20]] and stages IR[11:7] for every kind but the trap and the
no-op, whether or not the format has those fields, and before any write. -/
def Obligations.DecodeStagesTheLatches : Prop :=
  ∀ (s t : State) (w : Word) (i : Instr), s.fetchRead = .ok w → step s = .next t →
    classify s.params w = .instr i → i ≠ .exitTrap →
      t.operand1 = s.reg (rs1Of w) ∧ t.operand2 = s.reg (rs2Of w) ∧ t.dest = rdOf w ∧ t.ir = w

/-- Derived from R186: no step changes the launch parameters. -/
def Obligations.ParametersNeverChange : Prop :=
  ∀ s t : State, step s = .next t → t.params = s.params

/-- Derived from R187: a run that ends normally is not one that ends in a fault. -/
def Obligations.NormalEndExcludesFault : Prop :=
  ∀ s : State, EndsNormally s → ∀ f, ¬ EndsInFault s f

/-! ### R family -/

/-- R117, R118, R126: add, sub and mul complete in every state; x0 is written like any register. -/
def Obligations.AddSubMulWrap : Prop :=
  (∀ (s : State) (rd rs1 rs2 : Reg),
    (∃ t, exec (.add rd rs1 rs2) s = .next t ∧ Staged s t rs1 rs2 rd
        ∧ WritesOnly s t rd (BitVec.ofNat 32 ((s.reg rs1).toNat + (s.reg rs2).toNat)))
      ∧ (∃ t, exec (.sub rd rs1 rs2) s = .next t ∧ Staged s t rs1 rs2 rd
        ∧ WritesOnly s t rd (BitVec.ofInt 32 ((s.reg rs1).toNat - (s.reg rs2).toNat)))
      ∧ (∃ t, exec (.mul rd rs1 rs2) s = .next t ∧ Staged s t rs1 rs2 rd
        ∧ WritesOnly s t rd (BitVec.ofNat 32 ((s.reg rs1).toNat * (s.reg rs2).toNat))))
    ∧ decodeWord 0x002081B3 = .instr (.add 3 1 2) ∧ decodeWord 0x402081B3 = .instr (.sub 3 1 2)
    ∧ decodeWord 0x022081B3 = .instr (.mul 3 1 2)

/-- R121, R124, R125: xor, or and and complete in every state, bit by bit. -/
def Obligations.LogicIsBitwise : Prop :=
  (∀ (s : State) (rd rs1 rs2 : Reg),
    (∃ t v, exec (.xor rd rs1 rs2) s = .next t ∧ Staged s t rs1 rs2 rd ∧ WritesOnly s t rd v
        ∧ ∀ i, v.getLsbD i = ((s.reg rs1).getLsbD i ^^ (s.reg rs2).getLsbD i))
      ∧ (∃ t v, exec (.or rd rs1 rs2) s = .next t ∧ Staged s t rs1 rs2 rd ∧ WritesOnly s t rd v
        ∧ ∀ i, v.getLsbD i = ((s.reg rs1).getLsbD i || (s.reg rs2).getLsbD i))
      ∧ (∃ t v, exec (.and rd rs1 rs2) s = .next t ∧ Staged s t rs1 rs2 rd ∧ WritesOnly s t rd v
        ∧ ∀ i, v.getLsbD i = ((s.reg rs1).getLsbD i && (s.reg rs2).getLsbD i)))
    ∧ decodeWord 0x0020C1B3 = .instr (.xor 3 1 2) ∧ decodeWord 0x0020E1B3 = .instr (.or 3 1 2)
    ∧ decodeWord 0x0020F1B3 = .instr (.and 3 1 2)

/-- R119, R122, R123 with R116's shift amount: the low five bits of x[rs2]. sra rounds toward minus infinity. -/
def Obligations.ShiftsUseFiveBits : Prop :=
  (∀ (s : State) (rd rs1 rs2 : Reg),
    (∃ t, exec (.sll rd rs1 rs2) s = .next t ∧ Staged s t rs1 rs2 rd
        ∧ WritesOnly s t rd (BitVec.ofNat 32 ((s.reg rs1).toNat * 2 ^ ((s.reg rs2).toNat % 32))))
      ∧ (∃ t, exec (.srl rd rs1 rs2) s = .next t ∧ Staged s t rs1 rs2 rd
        ∧ WritesOnly s t rd (BitVec.ofNat 32 ((s.reg rs1).toNat / 2 ^ ((s.reg rs2).toNat % 32))))
      ∧ (∃ t, exec (.sra rd rs1 rs2) s = .next t ∧ Staged s t rs1 rs2 rd
        ∧ WritesOnly s t rd (BitVec.ofInt 32 ((s.reg rs1).toInt.fdiv (2 ^ ((s.reg rs2).toNat % 32))))))
    ∧ decodeWord 0x002091B3 = .instr (.sll 3 1 2) ∧ decodeWord 0x0020D1B3 = .instr (.srl 3 1 2)
    ∧ decodeWord 0x4020D1B3 = .instr (.sra 3 1 2)

/-- R120: slt compares signed and gives 1 or 0. -/
def Obligations.SetLessThanIsSigned : Prop :=
  (∀ (s : State) (rd rs1 rs2 : Reg),
    ∃ t, exec (.slt rd rs1 rs2) s = .next t ∧ Staged s t rs1 rs2 rd
      ∧ WritesOnly s t rd (if (s.reg rs1).toInt < (s.reg rs2).toInt then 1 else 0))
    ∧ decodeWord 0x0020A1B3 = .instr (.slt 3 1 2)

/-- R127: div gives 0 for a zero divisor, the quotient rounded toward zero otherwise, and in the case -2^31 / -1
what DIV_OVERFLOW says. -/
def Obligations.DivideRoundsTowardZero : Prop :=
  (∀ (s : State) (rd rs1 rs2 : Reg),
    (s.reg rs2 = 0 → ∃ t, exec (.div rd rs1 rs2) s = .next t ∧ Staged s t rs1 rs2 rd ∧ WritesOnly s t rd 0)
      ∧ (s.reg rs2 ≠ 0 → ¬ (s.reg rs1 = 0x80000000 ∧ s.reg rs2 = 0xFFFFFFFF) →
          ∃ t v, exec (.div rd rs1 rs2) s = .next t ∧ Staged s t rs1 rs2 rd ∧ WritesOnly s t rd v
            ∧ v.toInt = (s.reg rs1).toInt.tdiv (s.reg rs2).toInt)
      ∧ (s.reg rs1 = 0x80000000 → s.reg rs2 = 0xFFFFFFFF → s.params.divOverflow = .fault →
          exec (.div rd rs1 rs2) s = .fault (.divOverflow s.ir))
      ∧ (s.reg rs1 = 0x80000000 → s.reg rs2 = 0xFFFFFFFF → s.params.divOverflow = .riscv →
          ∃ t, exec (.div rd rs1 rs2) s = .next t ∧ Staged s t rs1 rs2 rd ∧ WritesOnly s t rd 0x80000000))
    ∧ decodeWord 0x0220C1B3 = .instr (.div 3 1 2)

/-- R128: rem gives 0 for a zero divisor, else the remainder with the dividend's sign, and in the case
-2^31 rem -1 what DIV_OVERFLOW says. -/
def Obligations.RemainderTakesDividendSign : Prop :=
  (∀ (s : State) (rd rs1 rs2 : Reg),
    (s.reg rs2 = 0 → ∃ t, exec (.rem rd rs1 rs2) s = .next t ∧ Staged s t rs1 rs2 rd ∧ WritesOnly s t rd 0)
      ∧ (s.reg rs2 ≠ 0 → ¬ (s.reg rs1 = 0x80000000 ∧ s.reg rs2 = 0xFFFFFFFF) →
          ∃ t v, exec (.rem rd rs1 rs2) s = .next t ∧ Staged s t rs1 rs2 rd ∧ WritesOnly s t rd v
            ∧ v.toInt = (s.reg rs1).toInt.tmod (s.reg rs2).toInt)
      ∧ (s.reg rs1 = 0x80000000 → s.reg rs2 = 0xFFFFFFFF → s.params.divOverflow = .fault →
          exec (.rem rd rs1 rs2) s = .fault (.divOverflow s.ir))
      ∧ (s.reg rs1 = 0x80000000 → s.reg rs2 = 0xFFFFFFFF → s.params.divOverflow = .riscv →
          ∃ t, exec (.rem rd rs1 rs2) s = .next t ∧ Staged s t rs1 rs2 rd ∧ WritesOnly s t rd 0))
    ∧ decodeWord 0x0220E1B3 = .instr (.rem 3 1 2)

/-! ### I-type ALU family -/

/-- R130, R131, R132: addi, andi and ori complete in every state with the sign-extended immediate. -/
def Obligations.ImmediateAluUsesSignedImmediate : Prop :=
  (∀ (s : State) (rd rs1 : Reg) (imm : BitVec 12),
    (∃ t, exec (.addi rd rs1 imm) s = .next t ∧ Staged s t rs1 (rs2InI imm) rd
        ∧ WritesOnly s t rd (BitVec.ofInt 32 ((s.reg rs1).toInt + imm.toInt)))
      ∧ (∃ t, exec (.andi rd rs1 imm) s = .next t ∧ Staged s t rs1 (rs2InI imm) rd
        ∧ WritesOnly s t rd (s.reg rs1 &&& BitVec.ofInt 32 imm.toInt))
      ∧ (∃ t, exec (.ori rd rs1 imm) s = .next t ∧ Staged s t rs1 (rs2InI imm) rd
        ∧ WritesOnly s t rd (s.reg rs1 ||| BitVec.ofInt 32 imm.toInt)))
    ∧ decodeWord 0x00500093 = .instr (.addi 1 0 5) ∧ decodeWord 0xFF00F113 = .instr (.andi 2 1 (-16))
    ∧ decodeWord 0x7FF0E113 = .instr (.ori 2 1 0x7FF)

/-! ### Loads and stores -/

/-- R134, R135, R136 with R133: where the bytes at x[rs1] + imm are valid, lb, lh and lw complete with the value read,
bytes and half-words sign-extended, x0 written like any register; where they are not, they fault. The zero-extending
forms are ILLEGAL. -/
def Obligations.LoadsReadAndSignExtend : Prop :=
  (∀ (s : State) (rd rs1 : Reg) (imm : BitVec 12) (ea : Word),
    ea = s.reg rs1 + BitVec.ofInt 32 imm.toInt →
      (accessOk s.params ea 1 = true →
        ∃ t, exec (.lb rd rs1 imm) s = .next t ∧ Staged s t rs1 (rs2InI imm) rd
          ∧ WritesOnly s t rd ((s.mem.peek ea.toNat).signExtend 32))
      ∧ (accessOk s.params ea 2 = true →
        ∃ t, exec (.lh rd rs1 imm) s = .next t ∧ Staged s t rs1 (rs2InI imm) rd
          ∧ WritesOnly s t rd ((s.mem.peek (ea.toNat + 1) ++ s.mem.peek ea.toNat).signExtend 32))
      ∧ (accessOk s.params ea 4 = true →
        ∃ t, exec (.lw rd rs1 imm) s = .next t ∧ Staged s t rs1 (rs2InI imm) rd
          ∧ WritesOnly s t rd (s.mem.peek (ea.toNat + 3) ++ s.mem.peek (ea.toNat + 2)
              ++ s.mem.peek (ea.toNat + 1) ++ s.mem.peek ea.toNat))
      ∧ (accessOk s.params ea 1 = false → exec (.lb rd rs1 imm) s = .fault (.memOutOfRange ea 1))
      ∧ (accessOk s.params ea 2 = false → exec (.lh rd rs1 imm) s = .fault (.memOutOfRange ea 2))
      ∧ (accessOk s.params ea 4 = false → exec (.lw rd rs1 imm) s = .fault (.memOutOfRange ea 4)))
    ∧ decodeWord 0x00008283 = .instr (.lb 5 1 0) ∧ decodeWord 0x00209283 = .instr (.lh 5 1 2)
    ∧ decodeWord 0x0000A183 = .instr (.lw 3 1 0)
    ∧ decodeWord 0x0000C283 = .illegal ∧ decodeWord 0x0000D283 = .illegal

/-- R140, R141, R142 with R139: where the bytes at x[rs1] + imm are valid, sb, sh and sw complete: byte k there becomes
bits 8k+7:8k of x[rs2], and no other byte and no register changes; where they are not, they fault. -/
def Obligations.StoresWriteLowBytes : Prop :=
  (∀ (s : State) (rs1 rs2 : Reg) (imm : BitVec 12) (ea : Word), s.mem.wf = true →
    ea = s.reg rs1 + BitVec.ofInt 32 imm.toInt →
      (accessOk s.params ea 1 = true →
        ∃ t, exec (.sb rs1 rs2 imm) s = .next t
          ∧ t.mem.peek ea.toNat = (s.reg rs2).extractLsb' 0 8 ∧ SameMemoryOutside s t ea.toNat 1
          ∧ SameRegisters s t ∧ t.aluResult = ea ∧ Staged s t rs1 rs2 (rdInS imm) ∧ Retired s t (s.pc + 4))
      ∧ (accessOk s.params ea 2 = true →
        ∃ t, exec (.sh rs1 rs2 imm) s = .next t
          ∧ (∀ k, k < 2 → t.mem.peek (ea.toNat + k) = (s.reg rs2).extractLsb' (8 * k) 8)
          ∧ SameMemoryOutside s t ea.toNat 2
          ∧ SameRegisters s t ∧ t.aluResult = ea ∧ Staged s t rs1 rs2 (rdInS imm) ∧ Retired s t (s.pc + 4))
      ∧ (accessOk s.params ea 4 = true →
        ∃ t, exec (.sw rs1 rs2 imm) s = .next t
          ∧ (∀ k, k < 4 → t.mem.peek (ea.toNat + k) = (s.reg rs2).extractLsb' (8 * k) 8)
          ∧ SameMemoryOutside s t ea.toNat 4
          ∧ SameRegisters s t ∧ t.aluResult = ea ∧ Staged s t rs1 rs2 (rdInS imm) ∧ Retired s t (s.pc + 4))
      ∧ (accessOk s.params ea 1 = false → exec (.sb rs1 rs2 imm) s = .fault (.memOutOfRange ea 1))
      ∧ (accessOk s.params ea 2 = false → exec (.sh rs1 rs2 imm) s = .fault (.memOutOfRange ea 2))
      ∧ (accessOk s.params ea 4 = false → exec (.sw rs1 rs2 imm) s = .fault (.memOutOfRange ea 4)))
    ∧ decodeWord 0x00208023 = .instr (.sb 1 2 0) ∧ decodeWord 0x00209123 = .instr (.sh 1 2 2)
    ∧ decodeWord 0x0020A023 = .instr (.sw 1 2 0)

/-- R83, R137, R143: ld and sd raise UnsupportedWidth(IR) whatever their operands; in a step IR is the fetched
word. -/
def Obligations.DoubleWordFormsFault : Prop :=
  (∀ (s : State) (r q : Reg) (imm : BitVec 12),
    exec (.ld r q imm) s = .fault (.unsupportedWidth s.ir) ∧ exec (.sd r q imm) s = .fault (.unsupportedWidth s.ir))
    ∧ (∀ (s : State) (w : Word), s.status = .running → s.fetchRead = .ok w → s.params.admitUnnamed = true →
        (w &&& 0x0000707F = 0x00003003 ∨ w &&& 0x0000707F = 0x00003023) →
          step s = .fault (.unsupportedWidth w))
    ∧ decodeWord 0x0000B183 = .instr (.ld 3 1 0) ∧ decodeWord 0x0020B023 = .instr (.sd 1 2 0)

/-- R144: a store followed by a load of the same bytes returns the stored bytes, sign-extended where the load
extends. -/
def Obligations.StoreThenLoadReturnsBytes : Prop :=
  ∀ (s : State) (rs1 rs2 rd : Reg) (imm : BitVec 12), s.mem.wf = true →
    (accessOk s.params (s.reg rs1 + BitVec.ofInt 32 imm.toInt) 1 = true →
      ∃ t u, exec (.sb rs1 rs2 imm) s = .next t ∧ exec (.lb rd rs1 imm) t = .next u
        ∧ u.reg rd = ((s.reg rs2).setWidth 8).signExtend 32)
    ∧ (accessOk s.params (s.reg rs1 + BitVec.ofInt 32 imm.toInt) 2 = true →
      ∃ t u, exec (.sh rs1 rs2 imm) s = .next t ∧ exec (.lh rd rs1 imm) t = .next u
        ∧ u.reg rd = ((s.reg rs2).setWidth 16).signExtend 32)
    ∧ (accessOk s.params (s.reg rs1 + BitVec.ofInt 32 imm.toInt) 4 = true →
      ∃ t u, exec (.sw rs1 rs2 imm) s = .next t ∧ exec (.lw rd rs1 imm) t = .next u ∧ u.reg rd = s.reg rs2)

/-- R183: the fetch of the very next instruction sees each byte that a store wrote there, and the other bytes as they
were. -/
def Obligations.NextFetchSeesTheStore : Prop :=
  ∀ (s t : State) (i : Instr) (rs1 rs2 : Reg) (imm : BitVec 12) (ea : Word) (n : Nat), s.mem.wf = true →
    (i = .sb rs1 rs2 imm ∧ n = 1 ∨ i = .sh rs1 rs2 imm ∧ n = 2 ∨ i = .sw rs1 rs2 imm ∧ n = 4) →
    ea = s.reg rs1 + BitVec.ofInt 32 imm.toInt → exec i s = .next t →
      t.pc = s.pc + 4 ∧ ∀ w, t.fetchRead = .ok w → ∀ k, k < 4 →
        w.extractLsb' (8 * k) 8 =
          if ea.toNat ≤ t.pc.toNat + k ∧ t.pc.toNat + k < ea.toNat + n
          then (s.reg rs2).extractLsb' (8 * (t.pc.toNat + k - ea.toNat)) 8
          else s.mem.peek (t.pc.toNat + k)

/-! ### Branches, upper immediates, jumps -/

/-- R146 to R149 with R145: each branch completes in every state, at its own address plus the offset when its
predicate holds and at pc + 4 otherwise; no register and no byte changes. -/
def Obligations.BranchesFollowTheirPredicate : Prop :=
  (∀ (s : State) (rs1 rs2 : Reg) (off : BitVec 13) (taken : Word), taken = s.pc + BitVec.ofInt 32 off.toInt →
    (∃ t, exec (.beq rs1 rs2 off) s = .next t ∧ SameRegisters s t ∧ SameMemory s t
        ∧ Staged s t rs1 rs2 (rdInB off) ∧ t.aluResult = BitVec.ofInt 32 off.toInt
        ∧ Retired s t (if s.reg rs1 = s.reg rs2 then taken else s.pc + 4))
      ∧ (∃ t, exec (.bne rs1 rs2 off) s = .next t ∧ SameRegisters s t ∧ SameMemory s t
        ∧ Staged s t rs1 rs2 (rdInB off) ∧ t.aluResult = BitVec.ofInt 32 off.toInt
        ∧ Retired s t (if s.reg rs1 = s.reg rs2 then s.pc + 4 else taken))
      ∧ (∃ t, exec (.blt rs1 rs2 off) s = .next t ∧ SameRegisters s t ∧ SameMemory s t
        ∧ Staged s t rs1 rs2 (rdInB off) ∧ t.aluResult = BitVec.ofInt 32 off.toInt
        ∧ Retired s t (if (s.reg rs1).toInt < (s.reg rs2).toInt then taken else s.pc + 4))
      ∧ (∃ t, exec (.bge rs1 rs2 off) s = .next t ∧ SameRegisters s t ∧ SameMemory s t
        ∧ Staged s t rs1 rs2 (rdInB off) ∧ t.aluResult = BitVec.ofInt 32 off.toInt
        ∧ Retired s t (if (s.reg rs1).toInt < (s.reg rs2).toInt then s.pc + 4 else taken)))
    ∧ decodeWord 0x00208463 = .instr (.beq 1 2 8) ∧ decodeWord 0xFE009EE3 = .instr (.bne 1 0 (-4))
    ∧ decodeWord 0xFE20CCE3 = .instr (.blt 1 2 (-8)) ∧ decodeWord 0x0020D663 = .instr (.bge 1 2 12)

/-- R151, R152 with R150: lui and auipc complete in every state; x0 is written like any register. -/
def Obligations.UpperImmediatesShiftByTwelve : Prop :=
  (∀ (s : State) (rd : Reg) (imm : BitVec 20),
    (∃ t, exec (.lui rd imm) s = .next t ∧ Staged s t (rs1InU imm) (rs2InU imm) rd
        ∧ WritesOnly s t rd (BitVec.ofNat 32 (imm.toNat * 4096)))
      ∧ (∃ t, exec (.auipc rd imm) s = .next t ∧ Staged s t (rs1InU imm) (rs2InU imm) rd
        ∧ WritesOnly s t rd (s.pc + BitVec.ofNat 32 (imm.toNat * 4096))))
    ∧ decodeWord 0x100000B7 = .instr (.lui 1 0x10000) ∧ decodeWord 0x00001297 = .instr (.auipc 5 1)

/-- R153: jal completes in every state; it links rd unless rd is x0, which it leaves as it was. -/
def Obligations.JalLinksUnlessRdIsZero : Prop :=
  (∀ (s : State) (rd : Reg) (off : BitVec 21),
    ∃ t, exec (.jal rd off) s = .next t ∧ (rd ≠ 0 → t.reg rd = s.pc + 4) ∧ (rd = 0 → t.reg 0 = s.reg 0)
      ∧ SameRegistersBut s t rd ∧ SameMemory s t ∧ Staged s t (rs1InJ off) (rs2InJ off) rd
      ∧ Retired s t (s.pc + BitVec.ofInt 32 off.toInt))
    ∧ decodeWord 0x010000EF = .instr (.jal 1 16)

/-- R155: jalr completes in every state, at x[rs1] + imm with bit 0 cleared, from the old x[rs1] even where
rd = rs1; it links rd unless rd is x0, which it leaves as it was. -/
def Obligations.JalrJumpsThroughOldRegister : Prop :=
  (∀ (s : State) (rd rs1 : Reg) (imm : BitVec 12),
    ∃ t, exec (.jalr rd rs1 imm) s = .next t ∧ (rd ≠ 0 → t.reg rd = s.pc + 4) ∧ (rd = 0 → t.reg 0 = s.reg 0)
      ∧ SameRegistersBut s t rd ∧ SameMemory s t ∧ Staged s t rs1 (rs2InI imm) rd
      ∧ Retired s t (BitVec.ofNat 32 ((s.reg rs1 + BitVec.ofInt 32 imm.toInt).toNat / 2 * 2)))
    ∧ decodeWord 0x008280E7 = .instr (.jalr 1 5 8)

/-- Derived, the model's reading (log 5): jal and jalr leave the alu_result latch as it was. -/
def Obligations.JumpsKeepAluResult : Prop :=
  ∀ (s : State) (rd rs1 : Reg) (imm : BitVec 12) (off : BitVec 21),
    (∃ t, exec (.jal rd off) s = .next t ∧ t.aluResult = s.aluResult)
      ∧ ∃ t, exec (.jalr rd rs1 imm) s = .next t ∧ t.aluResult = s.aluResult

/-! ### Launch and halt observation -/

/-- R178: the launched state is reset but for memory; a byte holds what the last pair that covers it put there, and 0
where no pair covers it. -/
def Obligations.LaunchWritesPairsInOrder : Prop :=
  ∀ (p : Params) (image : List (Word × Word)) (s : State), launch p image = some s →
    s = { State.resetWith p with mem := s.mem }
      ∧ (∀ (before after : List (Word × Word)) (a w : Word) (k : Nat), image = before ++ (a, w) :: after → k < 4 →
          (∀ c ∈ after, ¬ (c.1.toNat ≤ a.toNat + k ∧ a.toNat + k < c.1.toNat + 4)) →
            s.mem.peek (a.toNat + k) = w.extractLsb' (8 * k) 8)
      ∧ ∀ b, (∀ c ∈ image, ¬ (c.1.toNat ≤ b ∧ b < c.1.toNat + 4)) → s.mem.peek b = 0

/-- R179: an image with a pair whose four bytes are not all valid starts no run, and with parameters within bounds
and ALLOW_MISALIGNED true no other image is refused. -/
def Obligations.LaunchRefusesInvalidPairs : Prop :=
  ∀ (p : Params) (image : List (Word × Word)),
    ((∃ c ∈ image, rangeValid p c.1 4 = false) → launch p image = none)
      ∧ (p.wf = true → p.allowMisaligned = true → launch p image = none →
          ∃ c ∈ image, rangeValid p c.1 4 = false)

/-- Derived from R178: a launch from a byte image, the other form R178 allows, leaves reset but for memory, each byte
as the last cell for it says. -/
def Obligations.ByteImageLaunchSetsBytes : Prop :=
  ∀ (p : Params) (image : List (Word × Byte)) (s : State), launchBytes p image = some s →
    s = { State.resetWith p with mem := s.mem } ∧ s.inv = true
      ∧ (∀ (before after : List (Word × Byte)) (a : Word) (v : Byte), image = before ++ (a, v) :: after →
          (∀ c ∈ after, c.1 ≠ a) → s.mem.peek a.toNat = v)
      ∧ ∀ b, (∀ c ∈ image, c.1.toNat ≠ b) → s.mem.peek b = 0

/-- R160: the snapshot lists every word of the grid that is not 0, and no other, in increasing order of address. -/
def Obligations.SnapshotListsNonzeroWords : Prop :=
  ∀ s : State, s.params.wf = true →
    (∀ a v, (a, v) ∈ s.snapshot ↔
        ∃ k, 4 * k < s.params.dataSpan ∧ a = BitVec.ofNat 32 (0x10000000 + 4 * k)
          ∧ s.memRead a 4 = .ok v ∧ v ≠ 0)
      ∧ s.snapshot.Pairwise fun x y => x.1.toNat < y.1.toNat

/-- Derived: the dump lists the 32 registers as signed numbers in order, then DUMP_WORDS words of the data segment
(R161); that an unreadable word is none in it is the model's choice (log 10). -/
def Obligations.DumpListsRegistersThenWords : Prop :=
  ∀ s : State,
    s.dump.registers.length = 32 ∧ s.dump.dataWords.length = s.params.dumpWords
      ∧ (∀ r : Reg, s.dump.registers[r.toNat]? = some (s.reg r).toInt)
      ∧ ∀ k, k < s.params.dumpWords →
          s.dump.dataWords[k]? =
            some (match s.memRead (BitVec.ofNat 32 (0x10000000 + 4 * k)) 4 with | .ok v => some v | .error _ => none)
end

