-- ==== Sys2Proof/Laws/Decode.lean ====
section
/-! SUPPORT. The fields of encoded words, one lemma per format and field, and that a word is the encoding of its own
fields (30_encoding.md R64 to R70). -/

namespace Sys2Proof

/-! ### Fields of an encoded word -/

@[simp] theorem opcodeOf_encR (f7 : BitVec 7) (rs2 rs1 : Reg) (f3 : BitVec 3) (rd : Reg) (op : BitVec 7) :
    opcodeOf (encR f7 rs2 rs1 f3 rd op) = op := by
  apply BitVec.eq_of_getLsbD_eq
  intro i hi
  unfold opcodeOf encR
  rw [BitVec.getLsbD_extractLsb']
  simp only [BitVec.getLsbD_append]
  interval_cases i <;> simp

@[simp] theorem rdOf_encR (f7 : BitVec 7) (rs2 rs1 : Reg) (f3 : BitVec 3) (rd : Reg) (op : BitVec 7) :
    rdOf (encR f7 rs2 rs1 f3 rd op) = rd := by
  apply BitVec.eq_of_getLsbD_eq
  intro i hi
  unfold rdOf encR
  rw [BitVec.getLsbD_extractLsb']
  simp only [BitVec.getLsbD_append]
  interval_cases i <;> simp

@[simp] theorem funct3Of_encR (f7 : BitVec 7) (rs2 rs1 : Reg) (f3 : BitVec 3) (rd : Reg) (op : BitVec 7) :
    funct3Of (encR f7 rs2 rs1 f3 rd op) = f3 := by
  apply BitVec.eq_of_getLsbD_eq
  intro i hi
  unfold funct3Of encR
  rw [BitVec.getLsbD_extractLsb']
  simp only [BitVec.getLsbD_append]
  interval_cases i <;> simp

@[simp] theorem rs1Of_encR (f7 : BitVec 7) (rs2 rs1 : Reg) (f3 : BitVec 3) (rd : Reg) (op : BitVec 7) :
    rs1Of (encR f7 rs2 rs1 f3 rd op) = rs1 := by
  apply BitVec.eq_of_getLsbD_eq
  intro i hi
  unfold rs1Of encR
  rw [BitVec.getLsbD_extractLsb']
  simp only [BitVec.getLsbD_append]
  interval_cases i <;> simp

@[simp] theorem rs2Of_encR (f7 : BitVec 7) (rs2 rs1 : Reg) (f3 : BitVec 3) (rd : Reg) (op : BitVec 7) :
    rs2Of (encR f7 rs2 rs1 f3 rd op) = rs2 := by
  apply BitVec.eq_of_getLsbD_eq
  intro i hi
  unfold rs2Of encR
  rw [BitVec.getLsbD_extractLsb']
  simp only [BitVec.getLsbD_append]
  interval_cases i <;> simp

@[simp] theorem funct7Of_encR (f7 : BitVec 7) (rs2 rs1 : Reg) (f3 : BitVec 3) (rd : Reg) (op : BitVec 7) :
    funct7Of (encR f7 rs2 rs1 f3 rd op) = f7 := by
  apply BitVec.eq_of_getLsbD_eq
  intro i hi
  unfold funct7Of encR
  rw [BitVec.getLsbD_extractLsb']
  simp only [BitVec.getLsbD_append]
  interval_cases i <;> simp

@[simp] theorem opcodeOf_encI (imm : BitVec 12) (rs1 : Reg) (f3 : BitVec 3) (rd : Reg) (op : BitVec 7) :
    opcodeOf (encI imm rs1 f3 rd op) = op := by
  apply BitVec.eq_of_getLsbD_eq
  intro i hi
  unfold opcodeOf encI
  rw [BitVec.getLsbD_extractLsb']
  simp only [BitVec.getLsbD_append]
  interval_cases i <;> simp

@[simp] theorem rdOf_encI (imm : BitVec 12) (rs1 : Reg) (f3 : BitVec 3) (rd : Reg) (op : BitVec 7) :
    rdOf (encI imm rs1 f3 rd op) = rd := by
  apply BitVec.eq_of_getLsbD_eq
  intro i hi
  unfold rdOf encI
  rw [BitVec.getLsbD_extractLsb']
  simp only [BitVec.getLsbD_append]
  interval_cases i <;> simp

@[simp] theorem funct3Of_encI (imm : BitVec 12) (rs1 : Reg) (f3 : BitVec 3) (rd : Reg) (op : BitVec 7) :
    funct3Of (encI imm rs1 f3 rd op) = f3 := by
  apply BitVec.eq_of_getLsbD_eq
  intro i hi
  unfold funct3Of encI
  rw [BitVec.getLsbD_extractLsb']
  simp only [BitVec.getLsbD_append]
  interval_cases i <;> simp

@[simp] theorem rs1Of_encI (imm : BitVec 12) (rs1 : Reg) (f3 : BitVec 3) (rd : Reg) (op : BitVec 7) :
    rs1Of (encI imm rs1 f3 rd op) = rs1 := by
  apply BitVec.eq_of_getLsbD_eq
  intro i hi
  unfold rs1Of encI
  rw [BitVec.getLsbD_extractLsb']
  simp only [BitVec.getLsbD_append]
  interval_cases i <;> simp

@[simp] theorem immIField_encI (imm : BitVec 12) (rs1 : Reg) (f3 : BitVec 3) (rd : Reg) (op : BitVec 7) :
    immIField (encI imm rs1 f3 rd op) = imm := by
  apply BitVec.eq_of_getLsbD_eq
  intro i hi
  unfold immIField encI
  rw [BitVec.getLsbD_extractLsb']
  simp only [BitVec.getLsbD_append]
  interval_cases i <;> simp

@[simp] theorem opcodeOf_encS (imm : BitVec 12) (rs2 rs1 : Reg) (f3 : BitVec 3) (op : BitVec 7) :
    opcodeOf (encS imm rs2 rs1 f3 op) = op := by
  apply BitVec.eq_of_getLsbD_eq
  intro i hi
  unfold opcodeOf encS
  rw [BitVec.getLsbD_extractLsb']
  simp only [BitVec.getLsbD_append, BitVec.getLsbD_extractLsb']
  interval_cases i <;> simp

@[simp] theorem funct3Of_encS (imm : BitVec 12) (rs2 rs1 : Reg) (f3 : BitVec 3) (op : BitVec 7) :
    funct3Of (encS imm rs2 rs1 f3 op) = f3 := by
  apply BitVec.eq_of_getLsbD_eq
  intro i hi
  unfold funct3Of encS
  rw [BitVec.getLsbD_extractLsb']
  simp only [BitVec.getLsbD_append, BitVec.getLsbD_extractLsb']
  interval_cases i <;> simp

@[simp] theorem rs1Of_encS (imm : BitVec 12) (rs2 rs1 : Reg) (f3 : BitVec 3) (op : BitVec 7) :
    rs1Of (encS imm rs2 rs1 f3 op) = rs1 := by
  apply BitVec.eq_of_getLsbD_eq
  intro i hi
  unfold rs1Of encS
  rw [BitVec.getLsbD_extractLsb']
  simp only [BitVec.getLsbD_append, BitVec.getLsbD_extractLsb']
  interval_cases i <;> simp

@[simp] theorem rs2Of_encS (imm : BitVec 12) (rs2 rs1 : Reg) (f3 : BitVec 3) (op : BitVec 7) :
    rs2Of (encS imm rs2 rs1 f3 op) = rs2 := by
  apply BitVec.eq_of_getLsbD_eq
  intro i hi
  unfold rs2Of encS
  rw [BitVec.getLsbD_extractLsb']
  simp only [BitVec.getLsbD_append, BitVec.getLsbD_extractLsb']
  interval_cases i <;> simp

@[simp] theorem immSField_encS (imm : BitVec 12) (rs2 rs1 : Reg) (f3 : BitVec 3) (op : BitVec 7) :
    immSField (encS imm rs2 rs1 f3 op) = imm := by
  apply BitVec.eq_of_getLsbD_eq
  intro i hi
  unfold immSField encS
  simp only [BitVec.getLsbD_append, BitVec.getLsbD_extractLsb']
  interval_cases i <;> simp

@[simp] theorem opcodeOf_encB (off : BitVec 13) (rs2 rs1 : Reg) (f3 : BitVec 3) (op : BitVec 7) :
    opcodeOf (encB off rs2 rs1 f3 op) = op := by
  apply BitVec.eq_of_getLsbD_eq
  intro i hi
  unfold opcodeOf encB
  rw [BitVec.getLsbD_extractLsb']
  simp only [BitVec.getLsbD_append, BitVec.getLsbD_extractLsb']
  interval_cases i <;> simp

@[simp] theorem funct3Of_encB (off : BitVec 13) (rs2 rs1 : Reg) (f3 : BitVec 3) (op : BitVec 7) :
    funct3Of (encB off rs2 rs1 f3 op) = f3 := by
  apply BitVec.eq_of_getLsbD_eq
  intro i hi
  unfold funct3Of encB
  rw [BitVec.getLsbD_extractLsb']
  simp only [BitVec.getLsbD_append, BitVec.getLsbD_extractLsb']
  interval_cases i <;> simp

@[simp] theorem rs1Of_encB (off : BitVec 13) (rs2 rs1 : Reg) (f3 : BitVec 3) (op : BitVec 7) :
    rs1Of (encB off rs2 rs1 f3 op) = rs1 := by
  apply BitVec.eq_of_getLsbD_eq
  intro i hi
  unfold rs1Of encB
  rw [BitVec.getLsbD_extractLsb']
  simp only [BitVec.getLsbD_append, BitVec.getLsbD_extractLsb']
  interval_cases i <;> simp

@[simp] theorem rs2Of_encB (off : BitVec 13) (rs2 rs1 : Reg) (f3 : BitVec 3) (op : BitVec 7) :
    rs2Of (encB off rs2 rs1 f3 op) = rs2 := by
  apply BitVec.eq_of_getLsbD_eq
  intro i hi
  unfold rs2Of encB
  rw [BitVec.getLsbD_extractLsb']
  simp only [BitVec.getLsbD_append, BitVec.getLsbD_extractLsb']
  interval_cases i <;> simp

@[simp] theorem immBField_encB (off : BitVec 13) (rs2 rs1 : Reg) (f3 : BitVec 3) (op : BitVec 7) (h : evenOffset off = true) :
    immBField (encB off rs2 rs1 f3 op) = off := by
  have h0 : off[0] = false := by simpa [evenOffset] using h
  apply BitVec.eq_of_getLsbD_eq
  intro i hi
  unfold immBField encB
  simp only [BitVec.getLsbD_append, BitVec.getLsbD_extractLsb']
  interval_cases i <;> simp [h0]

@[simp] theorem opcodeOf_encU (imm : BitVec 20) (rd : Reg) (op : BitVec 7) :
    opcodeOf (encU imm rd op) = op := by
  apply BitVec.eq_of_getLsbD_eq
  intro i hi
  unfold opcodeOf encU
  rw [BitVec.getLsbD_extractLsb']
  simp only [BitVec.getLsbD_append]
  interval_cases i <;> simp

@[simp] theorem rdOf_encU (imm : BitVec 20) (rd : Reg) (op : BitVec 7) :
    rdOf (encU imm rd op) = rd := by
  apply BitVec.eq_of_getLsbD_eq
  intro i hi
  unfold rdOf encU
  rw [BitVec.getLsbD_extractLsb']
  simp only [BitVec.getLsbD_append]
  interval_cases i <;> simp

@[simp] theorem immUField_encU (imm : BitVec 20) (rd : Reg) (op : BitVec 7) :
    immUField (encU imm rd op) = imm := by
  apply BitVec.eq_of_getLsbD_eq
  intro i hi
  unfold immUField encU
  rw [BitVec.getLsbD_extractLsb']
  simp only [BitVec.getLsbD_append]
  interval_cases i <;> simp

@[simp] theorem opcodeOf_encJ (off : BitVec 21) (rd : Reg) (op : BitVec 7) :
    opcodeOf (encJ off rd op) = op := by
  apply BitVec.eq_of_getLsbD_eq
  intro i hi
  unfold opcodeOf encJ
  rw [BitVec.getLsbD_extractLsb']
  simp only [BitVec.getLsbD_append, BitVec.getLsbD_extractLsb']
  interval_cases i <;> simp

@[simp] theorem rdOf_encJ (off : BitVec 21) (rd : Reg) (op : BitVec 7) :
    rdOf (encJ off rd op) = rd := by
  apply BitVec.eq_of_getLsbD_eq
  intro i hi
  unfold rdOf encJ
  rw [BitVec.getLsbD_extractLsb']
  simp only [BitVec.getLsbD_append, BitVec.getLsbD_extractLsb']
  interval_cases i <;> simp

@[simp] theorem immJField_encJ (off : BitVec 21) (rd : Reg) (op : BitVec 7) (h : evenOffset off = true) :
    immJField (encJ off rd op) = off := by
  have h0 : off[0] = false := by simpa [evenOffset] using h
  apply BitVec.eq_of_getLsbD_eq
  intro i hi
  unfold immJField encJ
  simp only [BitVec.getLsbD_append, BitVec.getLsbD_extractLsb']
  interval_cases i <;> simp [h0]

/-! ### A word is the encoding of its fields -/

theorem encR_fields (w : Word) :
    encR (funct7Of w) (rs2Of w) (rs1Of w) (funct3Of w) (rdOf w) (opcodeOf w) = w := by
  apply BitVec.eq_of_getLsbD_eq
  intro i hi
  unfold encR
  simp only [BitVec.getLsbD_append, BitVec.getLsbD_extractLsb', funct7Of, rs2Of, rs1Of, funct3Of, rdOf, opcodeOf]
  interval_cases i <;> simp

theorem encI_fields (w : Word) :
    encI (immIField w) (rs1Of w) (funct3Of w) (rdOf w) (opcodeOf w) = w := by
  apply BitVec.eq_of_getLsbD_eq
  intro i hi
  unfold encI
  simp only [BitVec.getLsbD_append, BitVec.getLsbD_extractLsb', immIField, rs1Of, funct3Of, rdOf, opcodeOf]
  interval_cases i <;> simp

theorem encS_fields (w : Word) :
    encS (immSField w) (rs2Of w) (rs1Of w) (funct3Of w) (opcodeOf w) = w := by
  apply BitVec.eq_of_getLsbD_eq
  intro i hi
  unfold encS
  simp only [BitVec.getLsbD_append, BitVec.getLsbD_extractLsb', immSField, rs2Of, rs1Of, funct3Of, opcodeOf]
  interval_cases i <;> simp

theorem encB_fields (w : Word) :
    encB (immBField w) (rs2Of w) (rs1Of w) (funct3Of w) (opcodeOf w) = w := by
  apply BitVec.eq_of_getLsbD_eq
  intro i hi
  unfold encB
  simp only [BitVec.getLsbD_append, BitVec.getLsbD_extractLsb', immBField, rs2Of, rs1Of, funct3Of, opcodeOf]
  interval_cases i <;> simp

theorem encU_fields (w : Word) :
    encU (immUField w) (rdOf w) (opcodeOf w) = w := by
  apply BitVec.eq_of_getLsbD_eq
  intro i hi
  unfold encU
  simp only [BitVec.getLsbD_append, BitVec.getLsbD_extractLsb', immUField, rdOf, opcodeOf]
  interval_cases i <;> simp

theorem encJ_fields (w : Word) :
    encJ (immJField w) (rdOf w) (opcodeOf w) = w := by
  apply BitVec.eq_of_getLsbD_eq
  intro i hi
  unfold encJ
  simp only [BitVec.getLsbD_append, BitVec.getLsbD_extractLsb', immJField, rdOf, opcodeOf]
  interval_cases i <;> simp

/-- An offset read from a word is even. -/
@[simp] theorem evenOffset_immBField (w : Word) : evenOffset (immBField w) = true := by
  simp only [evenOffset, immBField, BitVec.getLsbD_append]
  simp

@[simp] theorem evenOffset_immJField (w : Word) : evenOffset (immJField w) = true := by
  simp only [evenOffset, immJField, BitVec.getLsbD_append]
  simp

/-! ### The masks of the opcode table (R78) -/

/-- The R rows look at funct7, funct3 and opcode. -/
theorem and_maskR (w : Word) : w &&& 0xFE00707F = encR (funct7Of w) 0 0 (funct3Of w) 0 (opcodeOf w) := by
  apply BitVec.eq_of_getLsbD_eq
  intro i hi
  rw [BitVec.getLsbD_and]
  unfold encR
  simp only [BitVec.getLsbD_append, funct7Of, funct3Of, opcodeOf, BitVec.getLsbD_extractLsb']
  interval_cases i <;> simp

/-- The I, S and B rows look at funct3 and opcode. -/
theorem and_maskF3 (w : Word) : w &&& 0x0000707F = encI 0 0 (funct3Of w) 0 (opcodeOf w) := by
  apply BitVec.eq_of_getLsbD_eq
  intro i hi
  rw [BitVec.getLsbD_and]
  unfold encI
  simp only [BitVec.getLsbD_append, funct3Of, opcodeOf, BitVec.getLsbD_extractLsb']
  interval_cases i <;> simp

/-- The U and J rows look at opcode. -/
theorem and_maskOp (w : Word) : w &&& 0x0000007F = encU 0 0 (opcodeOf w) := by
  apply BitVec.eq_of_getLsbD_eq
  intro i hi
  rw [BitVec.getLsbD_and]
  unfold encU
  simp only [BitVec.getLsbD_append, opcodeOf, BitVec.getLsbD_extractLsb']
  interval_cases i <;> simp

/-! ### The trap word -/

@[simp] theorem opcodeOf_trapWord : opcodeOf Config.trapWord = 0x7F := by decide

/-- A word with an opcode other than 0x7F is not the trap word. -/
theorem ne_trapWord_of_opcode {w : Word} (h : opcodeOf w ≠ 0x7F) : w ≠ Config.trapWord := by
  rintro rfl; exact h opcodeOf_trapWord

/-! ### Words and bytes -/

@[simp] theorem wordOfBytes_bytesOfWord (w : Word) :
    wordOfBytes (w.extractLsb' 0 8) (w.extractLsb' 8 8) (w.extractLsb' 16 8) (w.extractLsb' 24 8) = w := by
  apply BitVec.eq_of_getLsbD_eq
  intro i hi
  unfold wordOfBytes
  simp only [BitVec.getLsbD_append, BitVec.getLsbD_extractLsb']
  interval_cases i <;> simp

/-- Decoding the bytes of a word is decoding the word. -/
theorem decodeBytes_bytesOfWord (w : Word) : decodeBytes (bytesOfWord w) = some (decodeWord w, []) := by
  simp [bytesOfWord, decodeBytes]

end Sys2Proof
end

