-- ==== Sys2Proof/Laws/State.lean ====
section
/-! SUPPORT. One lemma per field per update of State, and the register read of each update, so that no later proof
unfolds a record update. -/

namespace Sys2Proof.Machine

/-! ### setReg -/

@[simp] theorem State.setReg_params (s : State) (r : Reg) (v : Word) : (s.setReg r v).params = s.params := rfl
@[simp] theorem State.setReg_regs (s : State) (r : Reg) (v : Word) : (s.setReg r v).regs = s.regs.set r.toNat v r.isLt := rfl
@[simp] theorem State.setReg_pc (s : State) (r : Reg) (v : Word) : (s.setReg r v).pc = s.pc := rfl
@[simp] theorem State.setReg_ir (s : State) (r : Reg) (v : Word) : (s.setReg r v).ir = s.ir := rfl
@[simp] theorem State.setReg_operand1 (s : State) (r : Reg) (v : Word) : (s.setReg r v).operand1 = s.operand1 := rfl
@[simp] theorem State.setReg_operand2 (s : State) (r : Reg) (v : Word) : (s.setReg r v).operand2 = s.operand2 := rfl
@[simp] theorem State.setReg_dest (s : State) (r : Reg) (v : Word) : (s.setReg r v).dest = s.dest := rfl
@[simp] theorem State.setReg_aluResult (s : State) (r : Reg) (v : Word) : (s.setReg r v).aluResult = s.aluResult := rfl
@[simp] theorem State.setReg_skip (s : State) (r : Reg) (v : Word) : (s.setReg r v).skip = s.skip := rfl
@[simp] theorem State.setReg_cycles (s : State) (r : Reg) (v : Word) : (s.setReg r v).cycles = s.cycles := rfl
@[simp] theorem State.setReg_mem (s : State) (r : Reg) (v : Word) : (s.setReg r v).mem = s.mem := rfl
@[simp] theorem State.setReg_status (s : State) (r : Reg) (v : Word) : (s.setReg r v).status = s.status := rfl

/-! ### latch -/

@[simp] theorem State.latch_params (s : State) (w : Word) : (s.latch w).params = s.params := rfl
@[simp] theorem State.latch_regs (s : State) (w : Word) : (s.latch w).regs = s.regs := rfl
@[simp] theorem State.latch_pc (s : State) (w : Word) : (s.latch w).pc = s.pc := rfl
@[simp] theorem State.latch_ir (s : State) (w : Word) : (s.latch w).ir = w := rfl
@[simp] theorem State.latch_operand1 (s : State) (w : Word) : (s.latch w).operand1 = s.operand1 := rfl
@[simp] theorem State.latch_operand2 (s : State) (w : Word) : (s.latch w).operand2 = s.operand2 := rfl
@[simp] theorem State.latch_dest (s : State) (w : Word) : (s.latch w).dest = s.dest := rfl
@[simp] theorem State.latch_aluResult (s : State) (w : Word) : (s.latch w).aluResult = s.aluResult := rfl
@[simp] theorem State.latch_skip (s : State) (w : Word) : (s.latch w).skip = s.skip := rfl
@[simp] theorem State.latch_cycles (s : State) (w : Word) : (s.latch w).cycles = s.cycles := rfl
@[simp] theorem State.latch_mem (s : State) (w : Word) : (s.latch w).mem = s.mem := rfl
@[simp] theorem State.latch_status (s : State) (w : Word) : (s.latch w).status = s.status := rfl

/-! ### stage -/

@[simp] theorem State.stage_params (s : State) (rs1 rs2 rd : Reg) : (s.stage rs1 rs2 rd).params = s.params := rfl
@[simp] theorem State.stage_regs (s : State) (rs1 rs2 rd : Reg) : (s.stage rs1 rs2 rd).regs = s.regs := rfl
@[simp] theorem State.stage_pc (s : State) (rs1 rs2 rd : Reg) : (s.stage rs1 rs2 rd).pc = s.pc := rfl
@[simp] theorem State.stage_ir (s : State) (rs1 rs2 rd : Reg) : (s.stage rs1 rs2 rd).ir = s.ir := rfl
@[simp] theorem State.stage_operand1 (s : State) (rs1 rs2 rd : Reg) : (s.stage rs1 rs2 rd).operand1 = s.reg rs1 := rfl
@[simp] theorem State.stage_operand2 (s : State) (rs1 rs2 rd : Reg) : (s.stage rs1 rs2 rd).operand2 = s.reg rs2 := rfl
@[simp] theorem State.stage_dest (s : State) (rs1 rs2 rd : Reg) : (s.stage rs1 rs2 rd).dest = rd := rfl
@[simp] theorem State.stage_aluResult (s : State) (rs1 rs2 rd : Reg) : (s.stage rs1 rs2 rd).aluResult = s.aluResult := rfl
@[simp] theorem State.stage_skip (s : State) (rs1 rs2 rd : Reg) : (s.stage rs1 rs2 rd).skip = false := rfl
@[simp] theorem State.stage_cycles (s : State) (rs1 rs2 rd : Reg) : (s.stage rs1 rs2 rd).cycles = s.cycles := rfl
@[simp] theorem State.stage_mem (s : State) (rs1 rs2 rd : Reg) : (s.stage rs1 rs2 rd).mem = s.mem := rfl
@[simp] theorem State.stage_status (s : State) (rs1 rs2 rd : Reg) : (s.stage rs1 rs2 rd).status = s.status := rfl

/-! ### setAlu -/

@[simp] theorem State.setAlu_params (s : State) (v : Word) : (s.setAlu v).params = s.params := rfl
@[simp] theorem State.setAlu_regs (s : State) (v : Word) : (s.setAlu v).regs = s.regs := rfl
@[simp] theorem State.setAlu_pc (s : State) (v : Word) : (s.setAlu v).pc = s.pc := rfl
@[simp] theorem State.setAlu_ir (s : State) (v : Word) : (s.setAlu v).ir = s.ir := rfl
@[simp] theorem State.setAlu_operand1 (s : State) (v : Word) : (s.setAlu v).operand1 = s.operand1 := rfl
@[simp] theorem State.setAlu_operand2 (s : State) (v : Word) : (s.setAlu v).operand2 = s.operand2 := rfl
@[simp] theorem State.setAlu_dest (s : State) (v : Word) : (s.setAlu v).dest = s.dest := rfl
@[simp] theorem State.setAlu_aluResult (s : State) (v : Word) : (s.setAlu v).aluResult = v := rfl
@[simp] theorem State.setAlu_skip (s : State) (v : Word) : (s.setAlu v).skip = s.skip := rfl
@[simp] theorem State.setAlu_cycles (s : State) (v : Word) : (s.setAlu v).cycles = s.cycles := rfl
@[simp] theorem State.setAlu_mem (s : State) (v : Word) : (s.setAlu v).mem = s.mem := rfl
@[simp] theorem State.setAlu_status (s : State) (v : Word) : (s.setAlu v).status = s.status := rfl

/-! ### jumpTo -/

@[simp] theorem State.jumpTo_params (s : State) (t : Word) : (s.jumpTo t).params = s.params := rfl
@[simp] theorem State.jumpTo_regs (s : State) (t : Word) : (s.jumpTo t).regs = s.regs := rfl
@[simp] theorem State.jumpTo_pc (s : State) (t : Word) : (s.jumpTo t).pc = t := rfl
@[simp] theorem State.jumpTo_ir (s : State) (t : Word) : (s.jumpTo t).ir = s.ir := rfl
@[simp] theorem State.jumpTo_operand1 (s : State) (t : Word) : (s.jumpTo t).operand1 = s.operand1 := rfl
@[simp] theorem State.jumpTo_operand2 (s : State) (t : Word) : (s.jumpTo t).operand2 = s.operand2 := rfl
@[simp] theorem State.jumpTo_dest (s : State) (t : Word) : (s.jumpTo t).dest = s.dest := rfl
@[simp] theorem State.jumpTo_aluResult (s : State) (t : Word) : (s.jumpTo t).aluResult = s.aluResult := rfl
@[simp] theorem State.jumpTo_skip (s : State) (t : Word) : (s.jumpTo t).skip = true := rfl
@[simp] theorem State.jumpTo_cycles (s : State) (t : Word) : (s.jumpTo t).cycles = s.cycles := rfl
@[simp] theorem State.jumpTo_mem (s : State) (t : Word) : (s.jumpTo t).mem = s.mem := rfl
@[simp] theorem State.jumpTo_status (s : State) (t : Word) : (s.jumpTo t).status = s.status := rfl

/-! ### commit -/

@[simp] theorem State.commit_params (s : State) : s.commit.params = s.params := rfl
@[simp] theorem State.commit_regs (s : State) : s.commit.regs = s.regs.set s.dest.toNat s.aluResult s.dest.isLt := rfl
@[simp] theorem State.commit_pc (s : State) : s.commit.pc = s.pc := rfl
@[simp] theorem State.commit_ir (s : State) : s.commit.ir = s.ir := rfl
@[simp] theorem State.commit_operand1 (s : State) : s.commit.operand1 = s.operand1 := rfl
@[simp] theorem State.commit_operand2 (s : State) : s.commit.operand2 = s.operand2 := rfl
@[simp] theorem State.commit_dest (s : State) : s.commit.dest = s.dest := rfl
@[simp] theorem State.commit_aluResult (s : State) : s.commit.aluResult = s.aluResult := rfl
@[simp] theorem State.commit_skip (s : State) : s.commit.skip = s.skip := rfl
@[simp] theorem State.commit_cycles (s : State) : s.commit.cycles = s.cycles := rfl
@[simp] theorem State.commit_mem (s : State) : s.commit.mem = s.mem := rfl
@[simp] theorem State.commit_status (s : State) : s.commit.status = s.status := rfl

/-! ### retire -/

@[simp] theorem State.retire_params (s : State) : s.retire.params = s.params := rfl
@[simp] theorem State.retire_regs (s : State) : s.retire.regs = s.regs := rfl
@[simp] theorem State.retire_pc (s : State) : s.retire.pc = if s.skip then s.pc else s.pc + 4 := rfl
@[simp] theorem State.retire_ir (s : State) : s.retire.ir = s.ir := rfl
@[simp] theorem State.retire_operand1 (s : State) : s.retire.operand1 = s.operand1 := rfl
@[simp] theorem State.retire_operand2 (s : State) : s.retire.operand2 = s.operand2 := rfl
@[simp] theorem State.retire_dest (s : State) : s.retire.dest = s.dest := rfl
@[simp] theorem State.retire_aluResult (s : State) : s.retire.aluResult = s.aluResult := rfl
@[simp] theorem State.retire_skip (s : State) : s.retire.skip = false := rfl
@[simp] theorem State.retire_cycles (s : State) : s.retire.cycles = s.cycles + 1 := rfl
@[simp] theorem State.retire_mem (s : State) : s.retire.mem = s.mem := rfl
@[simp] theorem State.retire_status (s : State) : s.retire.status = s.status := rfl

/-! ### nopStep -/

@[simp] theorem State.nopStep_params (s : State) : s.nopStep.params = s.params := rfl
@[simp] theorem State.nopStep_regs (s : State) : s.nopStep.regs = s.regs := rfl
@[simp] theorem State.nopStep_pc (s : State) : s.nopStep.pc = s.pc + 4 := rfl
@[simp] theorem State.nopStep_ir (s : State) : s.nopStep.ir = s.ir := rfl
@[simp] theorem State.nopStep_operand1 (s : State) : s.nopStep.operand1 = s.operand1 := rfl
@[simp] theorem State.nopStep_operand2 (s : State) : s.nopStep.operand2 = s.operand2 := rfl
@[simp] theorem State.nopStep_dest (s : State) : s.nopStep.dest = s.dest := rfl
@[simp] theorem State.nopStep_aluResult (s : State) : s.nopStep.aluResult = s.aluResult := rfl
@[simp] theorem State.nopStep_skip (s : State) : s.nopStep.skip = false := rfl
@[simp] theorem State.nopStep_cycles (s : State) : s.nopStep.cycles = s.cycles + 1 := rfl
@[simp] theorem State.nopStep_mem (s : State) : s.nopStep.mem = s.mem := rfl
@[simp] theorem State.nopStep_status (s : State) : s.nopStep.status = s.status := rfl

/-! ### faulted -/

@[simp] theorem State.faulted_params (s : State) (f : Fault) : (s.faulted f).params = s.params := rfl
@[simp] theorem State.faulted_regs (s : State) (f : Fault) : (s.faulted f).regs = s.regs := rfl
@[simp] theorem State.faulted_pc (s : State) (f : Fault) : (s.faulted f).pc = s.pc := rfl
@[simp] theorem State.faulted_ir (s : State) (f : Fault) : (s.faulted f).ir = s.ir := rfl
@[simp] theorem State.faulted_operand1 (s : State) (f : Fault) : (s.faulted f).operand1 = s.operand1 := rfl
@[simp] theorem State.faulted_operand2 (s : State) (f : Fault) : (s.faulted f).operand2 = s.operand2 := rfl
@[simp] theorem State.faulted_dest (s : State) (f : Fault) : (s.faulted f).dest = s.dest := rfl
@[simp] theorem State.faulted_aluResult (s : State) (f : Fault) : (s.faulted f).aluResult = s.aluResult := rfl
@[simp] theorem State.faulted_skip (s : State) (f : Fault) : (s.faulted f).skip = s.skip := rfl
@[simp] theorem State.faulted_cycles (s : State) (f : Fault) : (s.faulted f).cycles = s.cycles := rfl
@[simp] theorem State.faulted_mem (s : State) (f : Fault) : (s.faulted f).mem = s.mem := rfl
@[simp] theorem State.faulted_status (s : State) (f : Fault) : (s.faulted f).status = .faulted f := rfl

/-! ### halt -/

@[simp] theorem State.halt_params (s : State) : s.halt.params = s.params := rfl
@[simp] theorem State.halt_regs (s : State) : s.halt.regs = s.regs := rfl
@[simp] theorem State.halt_pc (s : State) : s.halt.pc = s.pc := rfl
@[simp] theorem State.halt_ir (s : State) : s.halt.ir = s.ir := rfl
@[simp] theorem State.halt_operand1 (s : State) : s.halt.operand1 = s.operand1 := rfl
@[simp] theorem State.halt_operand2 (s : State) : s.halt.operand2 = s.operand2 := rfl
@[simp] theorem State.halt_dest (s : State) : s.halt.dest = s.dest := rfl
@[simp] theorem State.halt_aluResult (s : State) : s.halt.aluResult = s.aluResult := rfl
@[simp] theorem State.halt_skip (s : State) : s.halt.skip = s.skip := rfl
@[simp] theorem State.halt_cycles (s : State) : s.halt.cycles = s.cycles := rfl
@[simp] theorem State.halt_mem (s : State) : s.halt.mem = s.mem := rfl
@[simp] theorem State.halt_status (s : State) : s.halt.status = .halted := rfl

/-! ### placeAtPc -/

@[simp] theorem State.placeAtPc_params (s : State) (w : Word) : (s.placeAtPc w).params = s.params := rfl
@[simp] theorem State.placeAtPc_regs (s : State) (w : Word) : (s.placeAtPc w).regs = s.regs := rfl
@[simp] theorem State.placeAtPc_pc (s : State) (w : Word) : (s.placeAtPc w).pc = s.pc := rfl
@[simp] theorem State.placeAtPc_ir (s : State) (w : Word) : (s.placeAtPc w).ir = s.ir := rfl
@[simp] theorem State.placeAtPc_operand1 (s : State) (w : Word) : (s.placeAtPc w).operand1 = s.operand1 := rfl
@[simp] theorem State.placeAtPc_operand2 (s : State) (w : Word) : (s.placeAtPc w).operand2 = s.operand2 := rfl
@[simp] theorem State.placeAtPc_dest (s : State) (w : Word) : (s.placeAtPc w).dest = s.dest := rfl
@[simp] theorem State.placeAtPc_aluResult (s : State) (w : Word) : (s.placeAtPc w).aluResult = s.aluResult := rfl
@[simp] theorem State.placeAtPc_skip (s : State) (w : Word) : (s.placeAtPc w).skip = s.skip := rfl
@[simp] theorem State.placeAtPc_cycles (s : State) (w : Word) : (s.placeAtPc w).cycles = s.cycles := rfl
@[simp] theorem State.placeAtPc_mem (s : State) (w : Word) : (s.placeAtPc w).mem = s.mem.writeLe s.pc.toNat w 4 := rfl
@[simp] theorem State.placeAtPc_status (s : State) (w : Word) : (s.placeAtPc w).status = s.status := rfl

/-! ### link -/

@[simp] theorem State.link_params (s : State) : s.link.params = s.params := by
  unfold State.link; split <;> rfl
@[simp] theorem State.link_pc (s : State) : s.link.pc = s.pc := by
  unfold State.link; split <;> rfl
@[simp] theorem State.link_ir (s : State) : s.link.ir = s.ir := by
  unfold State.link; split <;> rfl
@[simp] theorem State.link_operand1 (s : State) : s.link.operand1 = s.operand1 := by
  unfold State.link; split <;> rfl
@[simp] theorem State.link_operand2 (s : State) : s.link.operand2 = s.operand2 := by
  unfold State.link; split <;> rfl
@[simp] theorem State.link_dest (s : State) : s.link.dest = s.dest := by
  unfold State.link; split <;> rfl
@[simp] theorem State.link_aluResult (s : State) : s.link.aluResult = s.aluResult := by
  unfold State.link; split <;> rfl
@[simp] theorem State.link_skip (s : State) : s.link.skip = s.skip := by
  unfold State.link; split <;> rfl
@[simp] theorem State.link_cycles (s : State) : s.link.cycles = s.cycles := by
  unfold State.link; split <;> rfl
@[simp] theorem State.link_mem (s : State) : s.link.mem = s.mem := by
  unfold State.link; split <;> rfl
@[simp] theorem State.link_status (s : State) : s.link.status = s.status := by
  unfold State.link; split <;> rfl

/-! ### Registers -/

@[simp] theorem State.reg_setReg_self (s : State) (r : Reg) (v : Word) : (s.setReg r v).reg r = v := by
  simp [State.reg]

theorem State.reg_setReg_ne (s : State) {r q : Reg} (v : Word) (h : q ≠ r) : (s.setReg r v).reg q = s.reg q := by
  have hn : r.toNat ≠ q.toNat := fun e => h (BitVec.eq_of_toNat_eq e.symm)
  simp [State.reg, Vector.getElem_set_ne, hn]

theorem State.reg_setReg (s : State) (r q : Reg) (v : Word) :
    (s.setReg r v).reg q = if q = r then v else s.reg q := by
  split
  · subst_vars; exact State.reg_setReg_self s _ v
  · exact State.reg_setReg_ne s v ‹_›

@[simp] theorem State.reg_commit (s : State) (q : Reg) :
    s.commit.reg q = if q = s.dest then s.aluResult else s.reg q := State.reg_setReg s s.dest q s.aluResult

theorem State.reg_link (s : State) (q : Reg) :
    s.link.reg q = if q = s.dest ∧ s.dest ≠ 0 then s.pc + 4 else s.reg q := by
  unfold State.link
  split
  · simp_all
  · simp_all [State.reg_setReg]

@[simp] theorem State.reg_latch (s : State) (w : Word) (q : Reg) : (s.latch w).reg q = s.reg q := rfl
@[simp] theorem State.reg_stage (s : State) (rs1 rs2 rd : Reg) (q : Reg) : (s.stage rs1 rs2 rd).reg q = s.reg q := rfl
@[simp] theorem State.reg_setAlu (s : State) (v : Word) (q : Reg) : (s.setAlu v).reg q = s.reg q := rfl
@[simp] theorem State.reg_jumpTo (s : State) (t : Word) (q : Reg) : (s.jumpTo t).reg q = s.reg q := rfl
@[simp] theorem State.reg_retire (s : State) (q : Reg) : s.retire.reg q = s.reg q := rfl
@[simp] theorem State.reg_nopStep (s : State) (q : Reg) : s.nopStep.reg q = s.reg q := rfl
@[simp] theorem State.reg_faulted (s : State) (f : Fault) (q : Reg) : (s.faulted f).reg q = s.reg q := rfl
@[simp] theorem State.reg_halt (s : State) (q : Reg) : s.halt.reg q = s.reg q := rfl
@[simp] theorem State.reg_placeAtPc (s : State) (w : Word) (q : Reg) : (s.placeAtPc w).reg q = s.reg q := rfl

/-! ### Reset -/

@[simp] theorem State.resetWith_reg (p : Params) (r : Reg) : (State.resetWith p).reg r = 0 := by
  simp [State.reg, State.resetWith]

@[simp] theorem State.resetWith_params (p : Params) : (State.resetWith p).params = p := rfl
@[simp] theorem State.resetWith_pc (p : Params) : (State.resetWith p).pc = 0 := rfl
@[simp] theorem State.resetWith_ir (p : Params) : (State.resetWith p).ir = 0 := rfl
@[simp] theorem State.resetWith_operand1 (p : Params) : (State.resetWith p).operand1 = 0 := rfl
@[simp] theorem State.resetWith_operand2 (p : Params) : (State.resetWith p).operand2 = 0 := rfl
@[simp] theorem State.resetWith_dest (p : Params) : (State.resetWith p).dest = 0 := rfl
@[simp] theorem State.resetWith_aluResult (p : Params) : (State.resetWith p).aluResult = 0 := rfl
@[simp] theorem State.resetWith_skip (p : Params) : (State.resetWith p).skip = false := rfl
@[simp] theorem State.resetWith_cycles (p : Params) : (State.resetWith p).cycles = 0 := rfl
@[simp] theorem State.resetWith_mem (p : Params) : (State.resetWith p).mem = [] := rfl
@[simp] theorem State.resetWith_status (p : Params) : (State.resetWith p).status = .running := rfl

end Sys2Proof.Machine
end

