-- ==== Sys2Proof/Laws/Memory.lean ====
section
/-! SUPPORT. Memory: what a poke leaves readable, that every memory operation keeps the canonical form and the valid
range, and when the checked accesses succeed. -/

namespace Sys2Proof.Machine

/-! ### Canonical form -/

@[simp] theorem Memory.wf_nil : Memory.wf [] = true := rfl

@[simp] theorem Memory.peek_nil (a : Nat) : Memory.peek [] a = Memory.blank := rfl

theorem Memory.peek_cons (c : Host.Cell) (m : Memory) (a : Nat) :
    Memory.peek (c :: m) a = if c.1 = a then c.2 else Memory.peek m a := rfl

/-- A canonical list is a listed byte before a canonical list of higher addresses. -/
theorem Memory.wf_cons_iff (c : Host.Cell) (m : Memory) :
    Memory.wf (c :: m) = true ↔ c.2 ≠ Memory.blank ∧ (∀ d ∈ m, c.1 < d.1) ∧ Memory.wf m = true := by
  induction m generalizing c with
  | nil => simp [Memory.wf]
  | cons d rest ih =>
    have hd := ih d
    simp only [Memory.wf, Bool.and_eq_true, bne_iff_ne, ne_eq, decide_eq_true_eq, List.mem_cons,
      forall_eq_or_imp]
    constructor
    · rintro ⟨⟨hc, hlt⟩, hw⟩
      refine ⟨hc, ⟨hlt, fun e he => ?_⟩, hw⟩
      exact lt_trans hlt ((hd.mp hw).2.1 e he)
    · rintro ⟨hc, ⟨hlt, _⟩, hw⟩
      exact ⟨⟨hc, hlt⟩, hw⟩

/-- An address below every listed one is unlisted. -/
theorem Memory.peek_of_lt_all {m : Memory} {a : Nat} (h : ∀ d ∈ m, a < d.1) : m.peek a = Memory.blank := by
  induction m with
  | nil => rfl
  | cons d rest ih =>
    rw [Memory.peek_cons, if_neg (by have := h d (by simp); omega)]
    exact ih fun e he => h e (List.mem_cons_of_mem _ he)

/-- The addresses a poke leaves listed were listed, or are the poked one. -/
theorem Memory.mem_poke {m : Memory} {a : Nat} {v : Byte} {d : Host.Cell} (h : d ∈ m.poke a v) :
    d ∈ m ∨ d.1 = a := by
  induction m with
  | nil => unfold Memory.poke at h; split at h <;> simp_all
  | cons c rest ih =>
    unfold Memory.poke at h
    split at h
    · split at h <;> simp_all
      rcases h with h | h | h <;> simp_all
    · split at h
      · split at h <;> simp_all
        rcases h with h | h <;> simp_all
      · rcases List.mem_cons.mp h with h | h
        · exact .inl (by simp [h])
        · rcases ih h with h | h
          · exact .inl (List.mem_cons_of_mem _ h)
          · exact .inr h

theorem Memory.poke_wf {m : Memory} (h : m.wf = true) (a : Nat) (v : Byte) : (m.poke a v).wf = true := by
  induction m with
  | nil => unfold Memory.poke; split <;> simp_all [Memory.wf]
  | cons c rest ih =>
    obtain ⟨hc, hlt, hw⟩ := (Memory.wf_cons_iff c rest).mp h
    unfold Memory.poke
    split
    · split
      · exact h
      · refine (Memory.wf_cons_iff _ _).mpr ⟨‹_›, fun d hd => ?_, h⟩
        rcases List.mem_cons.mp hd with hd | hd
        · simp_all
        · exact lt_trans ‹a < c.1› (hlt d hd)
    · split
      · split
        · exact hw
        · refine (Memory.wf_cons_iff _ _).mpr ⟨‹_›, fun d hd => ?_, hw⟩
          have := hlt d hd; simp_all
      · refine (Memory.wf_cons_iff _ _).mpr ⟨hc, fun d hd => ?_, ih hw⟩
        rcases Memory.mem_poke hd with hd | hd
        · exact hlt d hd
        · omega

/-- Another byte reads as before, whatever the list. -/
theorem Memory.peek_poke_ne (m : Memory) {a b : Nat} (v : Byte) (h : b ≠ a) : (m.poke a v).peek b = m.peek b := by
  induction m with
  | nil =>
    unfold Memory.poke; split
    · rfl
    · simp [Memory.peek_cons, Ne.symm h]
  | cons c rest ih =>
    unfold Memory.poke
    split
    · split
      · rfl
      · rw [Memory.peek_cons, if_neg (Ne.symm h)]
    · split
      · have hc : c.1 ≠ b := by omega
        split
        · simp [Memory.peek_cons, hc]
        · simp [Memory.peek_cons, hc, Ne.symm h]
      · simp [Memory.peek_cons, ih]

/-- The poked byte reads as the value poked. -/
theorem Memory.peek_poke_self {m : Memory} (h : m.wf = true) (a : Nat) (v : Byte) : (m.poke a v).peek a = v := by
  induction m with
  | nil => unfold Memory.poke; split <;> simp_all [Memory.peek_cons]
  | cons c rest ih =>
    obtain ⟨_, hlt, hw⟩ := (Memory.wf_cons_iff c rest).mp h
    unfold Memory.poke
    split
    · split
      · rw [Memory.peek_cons, if_neg (by omega), Memory.peek_of_lt_all fun d hd => lt_trans ‹a < c.1› (hlt d hd)]
        exact Eq.symm ‹_›
      · simp [Memory.peek_cons]
    · split
      · split
        · rw [Memory.peek_of_lt_all fun d hd => by have := hlt d hd; omega]
          exact Eq.symm ‹_›
        · simp [Memory.peek_cons]
      · rw [Memory.peek_cons, if_neg (by omega)]
        exact ih hw

/-- Two canonical memories that read alike are the same list. -/
theorem Memory.ext_of_peek {m₁ m₂ : Memory} (h₁ : m₁.wf = true) (h₂ : m₂.wf = true)
    (h : ∀ a, m₁.peek a = m₂.peek a) : m₁ = m₂ := by
  induction m₁ generalizing m₂ with
  | nil =>
    cases m₂ with
    | nil => rfl
    | cons d r₂ =>
      have := (Memory.wf_cons_iff d r₂).mp h₂
      have := h d.1
      simp_all [Memory.peek_cons]
  | cons c r₁ ih =>
    obtain ⟨hc, hlc, hw₁⟩ := (Memory.wf_cons_iff c r₁).mp h₁
    cases m₂ with
    | nil => have := h c.1; simp_all [Memory.peek_cons]
    | cons d r₂ =>
      obtain ⟨hd, hld, hw₂⟩ := (Memory.wf_cons_iff d r₂).mp h₂
      have key : c.1 = d.1 := by
        by_contra hne
        rcases Nat.lt_or_gt_of_ne hne with hlt | hlt
        · have := h c.1
          rw [Memory.peek_cons, if_pos rfl, Memory.peek_cons, if_neg (by omega),
            Memory.peek_of_lt_all fun e he => lt_trans hlt (hld e he)] at this
          exact hc this
        · have := h d.1
          rw [Memory.peek_cons, if_neg (by omega), Memory.peek_cons, if_pos rfl,
            Memory.peek_of_lt_all fun e he => lt_trans hlt (hlc e he)] at this
          exact hd this.symm
      have hval : c.2 = d.2 := by
        have := h c.1
        rwa [Memory.peek_cons, if_pos rfl, Memory.peek_cons, if_pos key.symm] at this
      have hrest : r₁ = r₂ := by
        refine ih hw₁ hw₂ fun a => ?_
        by_cases ha : c.1 = a
        · subst ha
          rw [Memory.peek_of_lt_all hlc, Memory.peek_of_lt_all fun e he => key ▸ hld e he]
        · have := h a
          rwa [Memory.peek_cons, if_neg ha, Memory.peek_cons, if_neg (key ▸ ha)] at this
      rw [hrest, Prod.ext key hval]

/-! ### Little-endian reads and writes -/

theorem Memory.writeLe_wf {m : Memory} (h : m.wf = true) (a : Nat) (v : Word) (n : Nat) :
    (m.writeLe a v n).wf = true := by
  induction n with
  | zero => exact h
  | succ n ih => exact Memory.poke_wf ih _ _

/-- A byte outside a..a+n-1 reads as before. -/
theorem Memory.peek_writeLe_outside (m : Memory) {a b : Nat} (v : Word) {n : Nat} (h : b < a ∨ a + n ≤ b) :
    (m.writeLe a v n).peek b = m.peek b := by
  induction n with
  | zero => rfl
  | succ n ih => rw [Memory.writeLe, Memory.peek_poke_ne _ _ (by omega), ih (by omega)]

/-- Byte a+k reads as bits 8k+7:8k of the value written. -/
theorem Memory.peek_writeLe_inside {m : Memory} (hm : m.wf = true) (a : Nat) (v : Word) {n k : Nat} (h : k < n) :
    (m.writeLe a v n).peek (a + k) = v.extractLsb' (8 * k) 8 := by
  induction n with
  | zero => omega
  | succ n ih =>
    rw [Memory.writeLe]
    by_cases hk : k = n
    · subst hk
      exact Memory.peek_poke_self (Memory.writeLe_wf hm a v k) _ _
    · rw [Memory.peek_poke_ne _ _ (by omega), ih (by omega)]

/-- A read depends only on the bytes in its range. -/
theorem Memory.readLe_congr {m₁ m₂ : Memory} {a n : Nat} (h : ∀ k, k < n → m₁.peek (a + k) = m₂.peek (a + k)) :
    m₁.readLe a n = m₂.readLe a n := by
  induction n with
  | zero => rfl
  | succ n ih => rw [Memory.readLe, Memory.readLe, h n (by omega), ih fun k hk => h k (by omega)]

theorem Memory.readLe_one (m : Memory) (a : Nat) : m.readLe a 1 = (m.peek a).setWidth 32 := by
  simp [Memory.readLe]

/-- Bit i of a byte placed at byte k of a word. -/
theorem getLsbD_byte_shift (x : Byte) (k i : Nat) (hi : i < 32) :
    ((x.setWidth 32 : Word) <<< (8 * k)).getLsbD i = (decide (8 * k ≤ i) && x.getLsbD (i - 8 * k)) := by
  rw [BitVec.getLsbD_shiftLeft, BitVec.getLsbD_setWidth]
  by_cases h : 8 * k ≤ i
  · simp [h, hi, show ¬ i < 8 * k by omega, show i - 8 * k < 32 by omega]
  · simp [h, show i < 8 * k by omega]

theorem Memory.getLsbD_readLe (m : Memory) (a : Nat) {n i : Nat} (hi : i < 32) :
    (m.readLe a n).getLsbD i = (decide (i < 8 * n) && (m.peek (a + i / 8)).getLsbD (i % 8)) := by
  induction n with
  | zero => simp [Memory.readLe]
  | succ n ih =>
    rw [Memory.readLe, BitVec.getLsbD_or, ih, getLsbD_byte_shift _ _ _ hi]
    by_cases h1 : i < 8 * n
    · simp [h1, show ¬ 8 * n ≤ i by omega, show i < 8 * (n + 1) by omega]
    · by_cases h2 : i < 8 * (n + 1)
      · have hq : i / 8 = n := by omega
        have hr : i % 8 = i - 8 * n := by omega
        simp [h1, h2, hq, hr, show 8 * n ≤ i by omega]
      · simp [h1, h2, BitVec.getLsbD_of_ge (m.peek (a + n)) (i - 8 * n) (by omega)]

/-- Byte k of a word read is the byte at a+k. -/
theorem Memory.extractLsb'_readLe (m : Memory) (a : Nat) {n k : Nat} (hn : n ≤ 4) (hk : k < n) :
    (m.readLe a n).extractLsb' (8 * k) 8 = m.peek (a + k) := by
  apply BitVec.eq_of_getLsbD_eq
  intro i hi
  rw [BitVec.getLsbD_extractLsb', Memory.getLsbD_readLe _ _ (by omega)]
  have h1 : (8 * k + i) / 8 = k := by omega
  have h2 : (8 * k + i) % 8 = i := by omega
  simp [h1, h2, hi, show 8 * k + i < 8 * n by omega]

/-- A read of the bytes just written gives the low bytes of the value. -/
theorem Memory.getLsbD_readLe_writeLe {m : Memory} (hm : m.wf = true) (a : Nat) (v : Word) {n i : Nat}
    (hi : i < 32) : ((m.writeLe a v n).readLe a n).getLsbD i = (decide (i < 8 * n) && v.getLsbD i) := by
  rw [Memory.getLsbD_readLe _ _ hi]
  by_cases h : i < 8 * n
  · rw [Memory.peek_writeLe_inside hm a v (show i / 8 < n by omega), BitVec.getLsbD_extractLsb']
    have h1 : i % 8 < 8 := Nat.mod_lt _ (by omega)
    have h2 : 8 * (i / 8) + i % 8 = i := Nat.div_add_mod i 8
    simp [h, h1, h2]
  · simp [h]

theorem Memory.readLe_writeLe_word {m : Memory} (hm : m.wf = true) (a : Nat) (v : Word) :
    (m.writeLe a v 4).readLe a 4 = v := by
  apply BitVec.eq_of_getLsbD_eq
  intro i hi
  rw [Memory.getLsbD_readLe_writeLe hm a v hi]
  simp [show i < 8 * 4 by omega]

/-! ### Valid addresses -/

/-- R43, in numbers. -/
theorem valid_iff (p : Params) (a : Nat) :
    valid p a = true ↔ a < 4096 ∨ (0x10000000 ≤ a ∧ a - 0x10000000 < p.memSize - 4096) := by
  rw [valid, Bool.or_eq_true, Bool.and_eq_true, decide_eq_true_iff, decide_eq_true_iff, decide_eq_true_iff]
  rfl

/-- R6's bounds, in numbers. -/
theorem wf_params_iff (p : Params) :
    p.wf = true ↔ ((4096 ≤ p.memSize ∧ p.memSize ≤ 4096 + (2 ^ 32 - 0x10000000)) ∧ p.dataSpan % 4 = 0)
      ∧ p.dataSpan ≤ p.memSize - 4096 := by
  rw [Params.wf, Bool.and_eq_true, Bool.and_eq_true, Bool.and_eq_true, decide_eq_true_iff, decide_eq_true_iff,
    decide_eq_true_iff, decide_eq_true_iff]
  rfl

theorem bufferIndex_low {a : Nat} (h : a < 0x10000000) : bufferIndex a = a := if_pos h

theorem bufferIndex_high {a : Nat} (h : 0x10000000 ≤ a) : bufferIndex a = a - 0x10000000 + 4096 :=
  if_neg (Nat.not_lt.mpr h)

/-! ### The checked accesses -/

theorem rangeValid_iff (p : Params) (a : Word) (n : Nat) :
    rangeValid p a n = true ↔ ∀ k, k < n → a.toNat + k ≤ 0xFFFFFFFF ∧ valid p (a.toNat + k) = true := by
  simp [rangeValid]

theorem accessOk_iff (p : Params) (a : Word) (n : Nat) :
    accessOk p a n = true ↔ (p.allowMisaligned = true ∨ a.toNat % n = 0) ∧ rangeValid p a n = true := by
  simp [accessOk]

theorem State.memRead_ok {s : State} {a : Word} {n : Nat} (h : accessOk s.params a n = true) :
    s.memRead a n = .ok (s.mem.readLe a.toNat n) := by simp [State.memRead, h]

theorem State.memRead_error {s : State} {a : Word} {n : Nat} (h : accessOk s.params a n = false) :
    s.memRead a n = .error (.memOutOfRange a n) := by simp [State.memRead, h]

theorem State.memWrite_ok {s : State} {a : Word} {n : Nat} (h : accessOk s.params a n = true) (v : Word) :
    s.memWrite a n v = .ok { s with mem := s.mem.writeLe a.toNat v n } := by simp [State.memWrite, h]

theorem State.memWrite_error {s : State} {a : Word} {n : Nat} (h : accessOk s.params a n = false) (v : Word) :
    s.memWrite a n v = .error (.memOutOfRange a n) := by simp [State.memWrite, h]

theorem State.fetchRead_ok {s : State} (h : accessOk s.params s.pc 4 = true) :
    s.fetchRead = .ok (s.mem.readLe s.pc.toNat 4) := by simp [State.fetchRead, h]

theorem State.fetchRead_error {s : State} (h : accessOk s.params s.pc 4 = false) :
    s.fetchRead = .error (.fetchOutOfRange s.pc) := by simp [State.fetchRead, h]

/-- All that a successful read says. -/
theorem State.memRead_eq_ok {s : State} {a : Word} {n : Nat} {v : Word} (h : s.memRead a n = .ok v) :
    accessOk s.params a n = true ∧ v = s.mem.readLe a.toNat n := by
  unfold State.memRead at h; split at h <;> simp_all

/-- All that a successful write says. -/
theorem State.memWrite_eq_ok {s t : State} {a : Word} {n : Nat} {v : Word} (h : s.memWrite a n v = .ok t) :
    accessOk s.params a n = true ∧ t = { s with mem := s.mem.writeLe a.toNat v n } := by
  unfold State.memWrite at h; split at h <;> simp_all

/-! ### The valid range -/

theorem Memory.inRange_poke {p : Params} {m : Memory} {a : Nat} (h : Memory.inRange p m = true)
    (ha : valid p a = true) (v : Byte) : Memory.inRange p (m.poke a v) = true := by
  simp only [Memory.inRange, List.all_eq_true] at h ⊢
  intro d hd
  rcases Memory.mem_poke hd with hd | hd
  · exact h d hd
  · rw [hd]; exact ha

theorem Memory.inRange_writeLe {p : Params} {m : Memory} {a : Word} {n : Nat} (h : Memory.inRange p m = true)
    (ha : rangeValid p a n = true) (v : Word) : Memory.inRange p (m.writeLe a.toNat v n) = true := by
  rw [rangeValid_iff] at ha
  induction n with
  | zero => exact h
  | succ n ih => exact Memory.inRange_poke (ih fun k hk => ha k (by omega)) (ha n (by omega)).2 _

end Sys2Proof.Machine
end

