-- ==== Sys2Proof/Laws/Exec.lean ====
section
/-! SUPPORT. One lemma per shared meaning: what it answers and all it changes, or that it faults. The meanings of the
instructions are these with an ALU operation, a width or a predicate filled in. -/

namespace Sys2Proof.Machine

/-! ### Completed writes -/

/-- The tail every register-writing instruction ends with, after the state `u` that computed v: alu_result is set,
the destination is committed, pc and cycles advance. -/
theorem writesOnly_commit_retire {s u : State} {rd : Reg} (v : Word) (hd : u.dest = rd)
    (hr : ∀ q, u.reg q = s.reg q) (hm : u.mem = s.mem) (hp : u.pc = s.pc) (hk : u.skip = false)
    (hc : u.cycles = s.cycles) (hctl : SameControl s u) : WritesOnly s (u.setAlu v).commit.retire rd v := by
  obtain ⟨h1, h2, h3⟩ := hctl
  refine ⟨by simp [hd], fun q hq => by simp [hd, hq, hr], fun b => by simp [hm], by simp, ?_⟩
  exact ⟨by simp [hk, hp], by simp, by simp [hc], by simp [h1], by simp [h2], by simp [h3]⟩

theorem sameControl_stage (s : State) (rs1 rs2 rd : Reg) : SameControl s (s.stage rs1 rs2 rd) := by
  simp [SameControl]

/-- R116. -/
theorem execR_spec (f : Word → Word → Word) (rd rs1 rs2 : Reg) (s : State) :
    ∃ t, execR f rd rs1 rs2 s = .next t ∧ Staged s t rs1 rs2 rd
      ∧ WritesOnly s t rd (f (s.reg rs1) (s.reg rs2)) :=
  ⟨_, rfl, by simp [Staged], writesOnly_commit_retire _ (by simp) (by simp) rfl rfl rfl rfl
    (sameControl_stage s _ _ _)⟩

/-- R127, R128: the operation has a result. -/
theorem execRDiv_some {f : DivOverflowPolicy → Word → Word → Option Word} {rd rs1 rs2 : Reg} {s : State} {v : Word}
    (h : f s.params.divOverflow (s.reg rs1) (s.reg rs2) = some v) :
    ∃ t, execRDiv f rd rs1 rs2 s = .next t ∧ Staged s t rs1 rs2 rd ∧ WritesOnly s t rd v :=
  ⟨((s.stage rs1 rs2 rd).setAlu v).commit.retire, by simp [execRDiv, h], by simp [Staged],
    writesOnly_commit_retire _ (by simp) (by simp) rfl rfl rfl rfl (sameControl_stage s _ _ _)⟩

/-- R127, R128: the operation overflows. -/
theorem execRDiv_none {f : DivOverflowPolicy → Word → Word → Option Word} {rd rs1 rs2 : Reg} {s : State}
    (h : f s.params.divOverflow (s.reg rs1) (s.reg rs2) = none) :
    execRDiv f rd rs1 rs2 s = .fault (.divOverflow s.ir) := by
  simp [execRDiv, h, raise]

/-- R129. -/
theorem execI_spec (f : Word → Word → Word) (rd rs1 : Reg) (imm : BitVec 12) (s : State) :
    ∃ t, execI f rd rs1 imm s = .next t ∧ Staged s t rs1 (rs2InI imm) rd
      ∧ WritesOnly s t rd (f (s.reg rs1) (immI imm)) :=
  ⟨_, rfl, by simp [Staged], writesOnly_commit_retire _ (by simp) (by simp) rfl rfl rfl rfl
    (sameControl_stage s _ _ _)⟩

/-- R133, all bytes valid. -/
theorem execLoad_ok {n : Width} {rd rs1 : Reg} {imm : BitVec 12} {s : State}
    (h : accessOk s.params (effectiveAddress (s.reg rs1) (immI imm)) n.bytes = true) :
    ∃ t, execLoad n rd rs1 imm s = .next t ∧ Staged s t rs1 (rs2InI imm) rd
      ∧ WritesOnly s t rd
          (n.extend (s.mem.readLe (effectiveAddress (s.reg rs1) (immI imm)).toNat n.bytes)) := by
  have hx : execLoad n rd rs1 imm s =
      .next ((((s.stage rs1 (rs2InI imm) rd).setAlu (effectiveAddress (s.reg rs1) (immI imm))).setAlu
        (n.extend (s.mem.readLe (effectiveAddress (s.reg rs1) (immI imm)).toNat n.bytes))).commit.retire) := by
    simp [execLoad, State.memRead, h]
  exact ⟨_, hx, by simp [Staged],
    writesOnly_commit_retire _ (by simp) (by simp) rfl rfl rfl rfl ⟨rfl, rfl, rfl⟩⟩

/-- R133, a byte not valid. -/
theorem execLoad_error {n : Width} {rd rs1 : Reg} {imm : BitVec 12} {s : State}
    (h : accessOk s.params (effectiveAddress (s.reg rs1) (immI imm)) n.bytes = false) :
    execLoad n rd rs1 imm s =
      .fault (.memOutOfRange (effectiveAddress (s.reg rs1) (immI imm)) n.bytes) := by
  simp [execLoad, State.memRead, h, raise]

/-- R139, all bytes valid. -/
theorem execStore_ok {n : Width} {rs1 rs2 : Reg} {imm : BitVec 12} {s : State}
    (h : accessOk s.params (effectiveAddress (s.reg rs1) (immS imm)) n.bytes = true) :
    ∃ t, execStore n rs1 rs2 imm s = .next t
      ∧ t.mem = s.mem.writeLe (effectiveAddress (s.reg rs1) (immS imm)).toNat (s.reg rs2) n.bytes
      ∧ SameRegisters s t ∧ t.aluResult = effectiveAddress (s.reg rs1) (immS imm)
      ∧ Staged s t rs1 rs2 (rdInS imm) ∧ Retired s t (s.pc + 4) := by
  refine ⟨_, by simp [execStore, State.memWrite, h]; rfl, ?_⟩
  simp [SameRegisters, Staged, Retired, SameControl, State.reg]

/-- R139, a byte not valid. -/
theorem execStore_error {n : Width} {rs1 rs2 : Reg} {imm : BitVec 12} {s : State}
    (h : accessOk s.params (effectiveAddress (s.reg rs1) (immS imm)) n.bytes = false) :
    execStore n rs1 rs2 imm s =
      .fault (.memOutOfRange (effectiveAddress (s.reg rs1) (immS imm)) n.bytes) := by
  simp [execStore, State.memWrite, h, raise]

/-- R145. -/
theorem execBranch_spec (cond : Word → Word → Bool) (rs1 rs2 : Reg) (off : BitVec 13) (s : State) :
    ∃ t, execBranch cond rs1 rs2 off s = .next t ∧ SameRegisters s t ∧ t.mem = s.mem
      ∧ Staged s t rs1 rs2 (rdInB off) ∧ t.aluResult = immB off
      ∧ Retired s t (if cond (s.reg rs1) (s.reg rs2) then s.pc + immB off else s.pc + 4) := by
  refine ⟨_, rfl, ?_⟩
  by_cases h : cond (s.reg rs1) (s.reg rs2) = true <;>
    simp [h, SameRegisters, Staged, Retired, SameControl]

/-- R150. -/
theorem execUpper_spec (f : Word → Word → Word) (rd : Reg) (imm : BitVec 20) (s : State) :
    ∃ t, execUpper f rd imm s = .next t ∧ Staged s t (rs1InU imm) (rs2InU imm) rd
      ∧ WritesOnly s t rd (f s.pc (immU imm)) :=
  ⟨_, rfl, by simp [Staged], writesOnly_commit_retire _ (by simp) (by simp) rfl rfl rfl rfl
    (sameControl_stage s _ _ _)⟩

/-! ### Immediates as numbers -/

theorem immI_eq_ofInt (f : BitVec 12) : immI f = BitVec.ofInt 32 f.toInt := rfl
theorem immS_eq_ofInt (f : BitVec 12) : immS f = BitVec.ofInt 32 f.toInt := rfl
theorem immB_eq_ofInt (f : BitVec 13) : immB f = BitVec.ofInt 32 f.toInt := rfl
theorem immJ_eq_ofInt (f : BitVec 21) : immJ f = BitVec.ofInt 32 f.toInt := rfl

/-! ### The register fields of formats that have immediate bits there (R97) -/

@[simp] theorem rs2Of_encI (imm : BitVec 12) (rs1 : Reg) (f3 : BitVec 3) (rd : Reg) (op : BitVec 7) :
    rs2Of (encI imm rs1 f3 rd op) = rs2InI imm := by
  apply BitVec.eq_of_getLsbD_eq
  intro i hi
  unfold encI
  simp only [rs2InI, rs2Of, BitVec.getLsbD_extractLsb', BitVec.getLsbD_append]
  interval_cases i <;> simp

@[simp] theorem rdOf_encS (imm : BitVec 12) (rs2 rs1 : Reg) (f3 : BitVec 3) (op : BitVec 7) :
    rdOf (encS imm rs2 rs1 f3 op) = rdInS imm := by
  apply BitVec.eq_of_getLsbD_eq
  intro i hi
  unfold encS
  simp only [rdInS, rdOf, BitVec.getLsbD_extractLsb', BitVec.getLsbD_append]
  interval_cases i <;> simp

@[simp] theorem rdOf_encB (off : BitVec 13) (rs2 rs1 : Reg) (f3 : BitVec 3) (op : BitVec 7) :
    rdOf (encB off rs2 rs1 f3 op) = rdInB off := by
  apply BitVec.eq_of_getLsbD_eq
  intro i hi
  unfold encB
  simp only [rdInB, rdOf, BitVec.getLsbD_extractLsb', BitVec.getLsbD_append]
  interval_cases i <;> simp

@[simp] theorem rs1Of_encU (imm : BitVec 20) (rd : Reg) (op : BitVec 7) : rs1Of (encU imm rd op) = rs1InU imm := by
  apply BitVec.eq_of_getLsbD_eq
  intro i hi
  unfold encU
  simp only [rs1InU, rs1Of, BitVec.getLsbD_extractLsb', BitVec.getLsbD_append]
  interval_cases i <;> simp

@[simp] theorem rs2Of_encU (imm : BitVec 20) (rd : Reg) (op : BitVec 7) : rs2Of (encU imm rd op) = rs2InU imm := by
  apply BitVec.eq_of_getLsbD_eq
  intro i hi
  unfold encU
  simp only [rs2InU, rs2Of, BitVec.getLsbD_extractLsb', BitVec.getLsbD_append]
  interval_cases i <;> simp

@[simp] theorem rs1Of_encJ (off : BitVec 21) (rd : Reg) (op : BitVec 7) : rs1Of (encJ off rd op) = rs1InJ off := by
  apply BitVec.eq_of_getLsbD_eq
  intro i hi
  unfold encJ
  simp only [rs1InJ, rs1Of, BitVec.getLsbD_extractLsb', BitVec.getLsbD_append]
  interval_cases i <;> simp

@[simp] theorem rs2Of_encJ (off : BitVec 21) (rd : Reg) (op : BitVec 7) : rs2Of (encJ off rd op) = rs2InJ off := by
  apply BitVec.eq_of_getLsbD_eq
  intro i hi
  unfold encJ
  simp only [rs2InJ, rs2Of, BitVec.getLsbD_extractLsb', BitVec.getLsbD_append]
  interval_cases i <;> simp

end Sys2Proof.Machine
end

