-- ==== Sys2Proof/Laws/Inversion.lean ====
section
/-! SUPPORT. What a next state of exec or step can be, said once: every whole-machine rule is a consequence of these
two inversions. -/

namespace Sys2Proof.Machine

/-! ### Even addresses -/

theorem toNat_even_iff {n : Nat} (v : BitVec n) : v.getLsbD 0 = false ↔ v.toNat % 2 = 0 := by
  rw [BitVec.getLsbD, Nat.testBit_zero]
  simp

theorem getLsbD_zero_add (x y : Word) : (x + y).getLsbD 0 = (x.getLsbD 0 ^^ y.getLsbD 0) := by
  rw [BitVec.getLsbD_add (by omega), BitVec.carry_zero, Bool.xor_false]

theorem getLsbD_zero_add_four (x : Word) : (x + 4).getLsbD 0 = x.getLsbD 0 := by
  rw [getLsbD_zero_add, show (4 : Word).getLsbD 0 = false from by decide, Bool.xor_false]

theorem immB_even {off : BitVec 13} (h : evenOffset off = true) : (immB off).getLsbD 0 = false := by
  have h0 : off.getLsbD 0 = false := by simpa [evenOffset] using h
  rw [immB, BitVec.getLsbD_signExtend]
  simpa using h0

theorem immJ_even {off : BitVec 21} (h : evenOffset off = true) : (immJ off).getLsbD 0 = false := by
  have h0 : off.getLsbD 0 = false := by simpa [evenOffset] using h
  rw [immJ, BitVec.getLsbD_signExtend]
  simpa using h0

theorem jalrTarget_even (x y : Word) : (jalrTarget x y).getLsbD 0 = false := by
  rw [jalrTarget, BitVec.getLsbD_and]
  simp

/-! ### One completed instruction -/

/-- All that a completed instruction other than the trap can have done. -/
structure Completed (i : Instr) (s t : State) : Prop where
  regs : ∀ r, t.reg r ≠ s.reg r → destination i = some r
  mem : t.mem = s.mem ∨ ∃ a n v, storeRange s i = some (a, n) ∧ accessOk s.params a n = true
    ∧ t.mem = s.mem.writeLe a.toNat v n
  control : SameControl s t
  skip : t.skip = false
  cycles : t.cycles = s.cycles + 1
  staged : Staged s t (rs1Of (encode i)) (rs2Of (encode i)) (rdOf (encode i))
  pc : t.pc = s.pc + 4 ∨ i.mnemonic ∈ ["beq", "bne", "blt", "bge", "jal", "jalr"]
  pc_even : i.wf = true → s.pc.getLsbD 0 = false → t.pc.getLsbD 0 = false

/-- An instruction that writes one register and goes on at pc + 4. -/
theorem Completed.of_writesOnly {i : Instr} {s t : State} {rd : Reg} {v : Word} (hd : destination i = some rd)
    (hst : Staged s t (rs1Of (encode i)) (rs2Of (encode i)) (rdOf (encode i))) (h : WritesOnly s t rd v)
    (hm : t.mem = s.mem) : Completed i s t := by
  obtain ⟨_, hr, _, _, hpc, hk, hc, hctl⟩ := h
  refine ⟨fun r hne => ?_, .inl hm, hctl, hk, hc, hst, .inl hpc, fun _ he => by rw [hpc, getLsbD_zero_add_four, he]⟩
  by_cases hq : r = rd
  · rw [hq, hd]
  · exact absurd (hr r hq) hne

/-- An instruction that goes on at pc + 4 and writes no register. -/
theorem Completed.of_store {i : Instr} {s t : State} {a : Word} {n : Nat} {v : Word}
    (hst : Staged s t (rs1Of (encode i)) (rs2Of (encode i)) (rdOf (encode i))) (hrange : storeRange s i = some (a, n))
    (hok : accessOk s.params a n = true) (hm : t.mem = s.mem.writeLe a.toNat v n) (hr : SameRegisters s t)
    (h : Retired s t (s.pc + 4)) : Completed i s t := by
  obtain ⟨hpc, hk, hc, hctl⟩ := h
  exact ⟨fun r hne => absurd (hr r) hne, .inr ⟨a, n, v, hrange, hok, hm⟩, hctl, hk, hc, hst, .inl hpc,
    fun _ he => by rw [hpc, getLsbD_zero_add_four, he]⟩

theorem execR_completed {i : Instr} {f : Word → Word → Word} {rd rs1 rs2 : Reg} {s t : State}
    (h : execR f rd rs1 rs2 s = .next t) (hd : destination i = some rd)
    (e : rs1Of (encode i) = rs1 ∧ rs2Of (encode i) = rs2 ∧ rdOf (encode i) = rd) : Completed i s t := by
  obtain ⟨u, hu, hst, hw⟩ := execR_spec f rd rs1 rs2 s
  obtain rfl : u = t := by rw [hu] at h; cases h; rfl
  obtain ⟨e1, e2, e3⟩ := e
  refine .of_writesOnly hd (by rw [e1, e2, e3]; exact hst) hw ?_
  unfold execR at hu; cases hu; simp

theorem execRDiv_completed {i : Instr} {f : DivOverflowPolicy → Word → Word → Option Word} {rd rs1 rs2 : Reg}
    {s t : State} (h : execRDiv f rd rs1 rs2 s = .next t) (hd : destination i = some rd)
    (e : rs1Of (encode i) = rs1 ∧ rs2Of (encode i) = rs2 ∧ rdOf (encode i) = rd) : Completed i s t := by
  cases hf : f s.params.divOverflow (s.reg rs1) (s.reg rs2) with
  | none => rw [execRDiv_none hf] at h; cases h
  | some v =>
    obtain ⟨u, hu, hst, hw⟩ := execRDiv_some (rd := rd) hf
    obtain rfl : u = t := by rw [hu] at h; cases h; rfl
    obtain ⟨e1, e2, e3⟩ := e
    refine .of_writesOnly hd (by rw [e1, e2, e3]; exact hst) hw ?_
    simp [execRDiv, hf] at hu; rw [← hu]; simp

theorem execI_completed {i : Instr} {f : Word → Word → Word} {rd rs1 : Reg} {imm : BitVec 12} {s t : State}
    (h : execI f rd rs1 imm s = .next t) (hd : destination i = some rd)
    (e : rs1Of (encode i) = rs1 ∧ rs2Of (encode i) = rs2InI imm ∧ rdOf (encode i) = rd) : Completed i s t := by
  obtain ⟨u, hu, hst, hw⟩ := execI_spec f rd rs1 imm s
  obtain rfl : u = t := by rw [hu] at h; cases h; rfl
  obtain ⟨e1, e2, e3⟩ := e
  refine .of_writesOnly hd (by rw [e1, e2, e3]; exact hst) hw ?_
  unfold execI at hu; cases hu; simp

theorem execUpper_completed {i : Instr} {f : Word → Word → Word} {rd : Reg} {imm : BitVec 20} {s t : State}
    (h : execUpper f rd imm s = .next t) (hd : destination i = some rd)
    (e : rs1Of (encode i) = rs1InU imm ∧ rs2Of (encode i) = rs2InU imm ∧ rdOf (encode i) = rd) : Completed i s t := by
  obtain ⟨u, hu, hst, hw⟩ := execUpper_spec f rd imm s
  obtain rfl : u = t := by rw [hu] at h; cases h; rfl
  obtain ⟨e1, e2, e3⟩ := e
  refine .of_writesOnly hd (by rw [e1, e2, e3]; exact hst) hw ?_
  unfold execUpper at hu; cases hu; simp

theorem execLoad_completed {i : Instr} {n : Width} {rd rs1 : Reg} {imm : BitVec 12} {s t : State}
    (h : execLoad n rd rs1 imm s = .next t) (hd : destination i = some rd)
    (e : rs1Of (encode i) = rs1 ∧ rs2Of (encode i) = rs2InI imm ∧ rdOf (encode i) = rd) : Completed i s t := by
  cases hok : accessOk s.params (effectiveAddress (s.reg rs1) (immI imm)) n.bytes with
  | false => rw [execLoad_error hok] at h; cases h
  | true =>
    obtain ⟨u, hu, hst, hw⟩ := execLoad_ok (rd := rd) hok
    obtain rfl : u = t := by rw [hu] at h; cases h; rfl
    obtain ⟨e1, e2, e3⟩ := e
    refine .of_writesOnly hd (by rw [e1, e2, e3]; exact hst) hw ?_
    simp [execLoad, State.memRead, hok] at hu; rw [← hu]; simp

theorem execStore_completed {i : Instr} {n : Width} {rs1 rs2 : Reg} {imm : BitVec 12} {s t : State}
    (h : execStore n rs1 rs2 imm s = .next t)
    (hrange : storeRange s i = some (effectiveAddress (s.reg rs1) (immS imm), n.bytes))
    (e : rs1Of (encode i) = rs1 ∧ rs2Of (encode i) = rs2 ∧ rdOf (encode i) = rdInS imm) : Completed i s t := by
  cases hok : accessOk s.params (effectiveAddress (s.reg rs1) (immS imm)) n.bytes with
  | false => rw [execStore_error hok] at h; cases h
  | true =>
    obtain ⟨u, hu, hm, hr, _, hst, hret⟩ := execStore_ok (rs2 := rs2) hok
    obtain rfl : u = t := by rw [hu] at h; cases h; rfl
    obtain ⟨e1, e2, e3⟩ := e
    exact .of_store (by rw [e1, e2, e3]; exact hst) hrange hok hm hr hret

theorem execBranch_completed {i : Instr} {cond : Word → Word → Bool} {rs1 rs2 : Reg} {off : BitVec 13} {s t : State}
    (h : execBranch cond rs1 rs2 off s = .next t) (hwf : i.wf = evenOffset off)
    (hmn : i.mnemonic ∈ ["beq", "bne", "blt", "bge", "jal", "jalr"])
    (e : rs1Of (encode i) = rs1 ∧ rs2Of (encode i) = rs2 ∧ rdOf (encode i) = rdInB off) : Completed i s t := by
  obtain ⟨u, hu, hr, hm, hst, _, hpc, hk, hc, hctl⟩ := execBranch_spec cond rs1 rs2 off s
  obtain rfl : u = t := by rw [hu] at h; cases h; rfl
  obtain ⟨e1, e2, e3⟩ := e
  refine ⟨fun r hne => absurd (hr r) hne, .inl hm, hctl, hk, hc, by rw [e1, e2, e3]; exact hst, .inr hmn,
    fun hw he => ?_⟩
  rw [hwf] at hw
  rw [hpc]
  split
  · rw [getLsbD_zero_add, he, immB_even hw]; rfl
  · rw [getLsbD_zero_add_four, he]

/-- The tail of jal and jalr. -/
theorem jump_completed {i : Instr} {s u t : State} {rd rs1 rs2 : Reg} {target : Word} (hu : u = s.stage rs1 rs2 rd)
    (h : t = (u.link.jumpTo target).retire) (hd : destination i = if rd = 0 then none else some rd)
    (hmn : i.mnemonic ∈ ["beq", "bne", "blt", "bge", "jal", "jalr"])
    (e : rs1Of (encode i) = rs1 ∧ rs2Of (encode i) = rs2 ∧ rdOf (encode i) = rd)
    (heven : i.wf = true → s.pc.getLsbD 0 = false → target.getLsbD 0 = false) : Completed i s t := by
  subst hu h
  obtain ⟨e1, e2, e3⟩ := e
  refine ⟨fun r hne => ?_, .inl (by simp), by simp [SameControl], by simp, by simp, by simp [Staged, e1, e2, e3], .inr hmn,
    fun hw he => by simpa using heven hw he⟩
  rw [hd]
  by_cases hc : r = rd ∧ rd ≠ 0
  · rw [if_neg hc.2, hc.1]
  · exact absurd (by rw [State.reg_retire, State.reg_jumpTo, State.reg_link]; exact if_neg hc) hne

/-- What a next state of exec is: the halted state after the trap, and a completed instruction otherwise. -/
theorem exec_next {i : Instr} {s t : State} (h : exec i s = .next t) :
    (i = .exitTrap ∧ t = s.halt) ∨ (i ≠ .exitTrap ∧ Completed i s t) := by
  cases i
  case exitTrap => cases h; exact .inl ⟨rfl, rfl⟩
  case ld => cases h
  case sd => cases h
  all_goals refine .inr ⟨by simp, ?_⟩
  case div => exact execRDiv_completed h rfl (by simp [encode])
  case rem => exact execRDiv_completed h rfl (by simp [encode])
  case addi => exact execI_completed h rfl (by simp [encode])
  case andi => exact execI_completed h rfl (by simp [encode])
  case ori => exact execI_completed h rfl (by simp [encode])
  case lb => exact execLoad_completed h rfl (by simp [encode])
  case lh => exact execLoad_completed h rfl (by simp [encode])
  case lw => exact execLoad_completed h rfl (by simp [encode])
  case sb => exact execStore_completed h rfl (by simp [encode])
  case sh => exact execStore_completed h rfl (by simp [encode])
  case sw => exact execStore_completed h rfl (by simp [encode])
  case beq => exact execBranch_completed h rfl (by simp [Instr.mnemonic]) (by simp [encode])
  case bne => exact execBranch_completed h rfl (by simp [Instr.mnemonic]) (by simp [encode])
  case blt => exact execBranch_completed h rfl (by simp [Instr.mnemonic]) (by simp [encode])
  case bge => exact execBranch_completed h rfl (by simp [Instr.mnemonic]) (by simp [encode])
  case lui => exact execUpper_completed (f := fun _ v => v) h rfl (by simp [encode])
  case auipc => exact execUpper_completed (f := fun pc v => pc + v) h rfl (by simp [encode])
  case jal rd off =>
    cases h
    refine jump_completed rfl rfl rfl (by simp [Instr.mnemonic]) (by simp [encode]) fun hw he => ?_
    rw [State.stage_pc, getLsbD_zero_add, he, immJ_even hw]; rfl
  case jalr rd rs1 imm =>
    cases h
    exact jump_completed rfl rfl rfl (by simp [Instr.mnemonic]) (by simp [encode]) fun _ _ => jalrTarget_even _ _
  all_goals exact execR_completed h rfl (by simp [encode])

/-! ### What a fault of exec is -/

theorem execLoad_fault {n : Width} {rd rs1 : Reg} {imm : BitVec 12} {s : State} {f : Fault}
    (h : execLoad n rd rs1 imm s = .fault f) :
    accessOk s.params (effectiveAddress (s.reg rs1) (immI imm)) n.bytes = false
      ∧ f = .memOutOfRange (effectiveAddress (s.reg rs1) (immI imm)) n.bytes := by
  cases hok : accessOk s.params (effectiveAddress (s.reg rs1) (immI imm)) n.bytes with
  | true => obtain ⟨t, ht, _⟩ := execLoad_ok (rd := rd) hok; rw [ht] at h; cases h
  | false => rw [execLoad_error hok] at h; cases h; exact ⟨rfl, rfl⟩

theorem execStore_fault {n : Width} {rs1 rs2 : Reg} {imm : BitVec 12} {s : State} {f : Fault}
    (h : execStore n rs1 rs2 imm s = .fault f) :
    accessOk s.params (effectiveAddress (s.reg rs1) (immS imm)) n.bytes = false
      ∧ f = .memOutOfRange (effectiveAddress (s.reg rs1) (immS imm)) n.bytes := by
  cases hok : accessOk s.params (effectiveAddress (s.reg rs1) (immS imm)) n.bytes with
  | true => obtain ⟨t, ht, _⟩ := execStore_ok (rs2 := rs2) hok; rw [ht] at h; cases h
  | false => rw [execStore_error hok] at h; cases h; exact ⟨rfl, rfl⟩

theorem execRDiv_fault {f : DivOverflowPolicy → Word → Word → Option Word} {rd rs1 rs2 : Reg} {s : State} {e : Fault}
    (h : execRDiv f rd rs1 rs2 s = .fault e) :
    f s.params.divOverflow (s.reg rs1) (s.reg rs2) = none ∧ e = .divOverflow s.ir := by
  cases hf : f s.params.divOverflow (s.reg rs1) (s.reg rs2) with
  | some v => obtain ⟨t, ht, _⟩ := execRDiv_some (rd := rd) hf; rw [ht] at h; cases h
  | none => rw [execRDiv_none hf] at h; cases h; exact ⟨rfl, rfl⟩

theorem divOverflows_iff (a b : Word) : divOverflows a b = true ↔ a = 0x80000000 ∧ b = 0xFFFFFFFF := by
  simp [divOverflows]

/-- div has no result in the one case R127 names, under the policy fault. -/
theorem aluDiv_eq_none_iff (p : DivOverflowPolicy) (a b : Word) :
    aluDiv p a b = none ↔ p = .fault ∧ a = 0x80000000 ∧ b = 0xFFFFFFFF := by
  rw [← divOverflows_iff]
  unfold aluDiv
  by_cases hb : b = 0
  · rw [if_pos hb, hb]; simp [divOverflows]
  · rw [if_neg hb]; cases p <;> cases divOverflows a b <;> simp

/-- rem has no result in the one case R128 names, under the policy fault. -/
theorem aluRem_eq_none_iff (p : DivOverflowPolicy) (a b : Word) :
    aluRem p a b = none ↔ p = .fault ∧ a = 0x80000000 ∧ b = 0xFFFFFFFF := by
  rw [← divOverflows_iff]
  unfold aluRem
  by_cases hb : b = 0
  · rw [if_pos hb, hb]; simp [divOverflows]
  · rw [if_neg hb]; cases p <;> cases divOverflows a b <;> simp

/-! ### One step -/

/-- From Running, after a fetch, a step is what the fetched word does. -/
theorem step_of_fetch {s : State} {w : Word} (hs : s.status = .running) (hf : s.fetchRead = .ok w) :
    step s = stepWord s w := by
  unfold step; rw [hs, hf]

theorem decodeWord_of_classify {p : Params} {w : Word} {i : Instr} (h : classify p w = .instr i) :
    decodeWord w = .instr i := by
  unfold classify at h
  split at h
  · split at h
    · cases h; assumption
    · cases h
  · cases h
  · cases h

/-- A step that answers at all is taken from Running. -/
theorem step_running {s : State} (h : step s ≠ .refused .notRunning) : s.status = .running := by
  unfold step at h
  cases hs : s.status <;> simp_all

/-- What a next state of step is: the fetched word ran as a no-op, or its instruction did. -/
theorem step_next {s t : State} (h : step s = .next t) :
    s.status = .running ∧ accessOk s.params s.pc 4 = true ∧ ∃ w, s.fetchRead = .ok w
      ∧ ((classify s.params w = .nopUnknown ∧ t = (s.latch w).nopStep)
        ∨ ∃ i, classify s.params w = .instr i ∧ exec i (s.latch w) = .next t) := by
  have hs : s.status = .running := step_running (by rw [h]; simp)
  unfold step at h
  rw [hs] at h
  cases hok : accessOk s.params s.pc 4 with
  | false => rw [State.fetchRead_error hok] at h; cases h
  | true =>
    refine ⟨hs, rfl, _, State.fetchRead_ok hok, ?_⟩
    rw [State.fetchRead_ok hok] at h
    dsimp only [stepWord] at h
    split at h
    · exact .inr ⟨_, ‹_›, h⟩
    · cases h; exact .inl ⟨‹_›, rfl⟩
    · cases h

/-! ### The invariant, taken apart -/

theorem inv_iff (s : State) :
    s.inv = true ↔ s.params.wf = true ∧ s.mem.wf = true ∧ Memory.inRange s.params s.mem = true
      ∧ s.pc.getLsbD 0 = false ∧ s.skip = false := by
  simp [State.inv, and_assoc]

end Sys2Proof.Machine
end

