-- ==== Sys2Proof/Laws/Loader.lean ====
section
/-! SUPPORT. The program load and the halt observation: what a load that succeeds leaves, when one fails, and what a line
of the snapshot is. -/

namespace Sys2Proof.Machine

/-! ### Pairs of address and word -/

theorem loadPair_eq_some {s t : State} {c : Word × Word} (h : loadPair s c = some t) :
    accessOk s.params c.1 4 = true ∧ t = { s with mem := s.mem.writeLe c.1.toNat c.2 4 } := by
  unfold loadPair at h
  split at h
  · cases h; exact State.memWrite_eq_ok ‹_›
  · cases h

/-- All that a load of pairs leaves: only memory differs, it stays canonical and in range, and a byte no pair covers
reads as before. -/
theorem loadPairs_eq_some {image : List (Word × Word)} {s u : State} (hm : s.mem.wf = true)
    (h : loadPairs s image = some u) :
    u = { s with mem := u.mem } ∧ u.mem.wf = true
      ∧ (Memory.inRange s.params s.mem = true → Memory.inRange s.params u.mem = true)
      ∧ ∀ b, (∀ c ∈ image, ¬ (c.1.toNat ≤ b ∧ b < c.1.toNat + 4)) → u.mem.peek b = s.mem.peek b := by
  induction image generalizing s with
  | nil => cases h; exact ⟨rfl, hm, id, fun _ _ => rfl⟩
  | cons c rest ih =>
    unfold loadPairs at h
    split at h
    · obtain ⟨hok, rfl⟩ := loadPair_eq_some ‹_›
      obtain ⟨h1, h2, h3, h4⟩ := ih (Memory.writeLe_wf hm _ _ _) h
      refine ⟨by rw [h1], h2, fun hr => h3 (Memory.inRange_writeLe hr ((accessOk_iff _ _ _).mp hok).2 _),
        fun b hb => ?_⟩
      rw [h4 b fun c hc => hb c (List.mem_cons_of_mem _ hc)]
      exact Memory.peek_writeLe_outside _ _ (by have := hb c (by simp); omega)
    · cases h

/-- A load of two lists is the load of one and then the other. -/
theorem loadPairs_append_eq_some {x y : List (Word × Word)} {s u : State} (h : loadPairs s (x ++ y) = some u) :
    ∃ t, loadPairs s x = some t ∧ loadPairs t y = some u := by
  induction x generalizing s with
  | nil => exact ⟨s, rfl, h⟩
  | cons c x ih =>
    rw [List.cons_append, loadPairs] at h
    split at h
    · rename_i t ht
      obtain ⟨v, hv, hy⟩ := ih h
      exact ⟨v, by rw [loadPairs, ht]; exact hv, hy⟩
    · cases h

/-- A load fails exactly at a pair that is not accessible. -/
theorem loadPairs_eq_none_iff {image : List (Word × Word)} {s : State} :
    loadPairs s image = none ↔ ∃ c ∈ image, accessOk s.params c.1 4 = false := by
  induction image generalizing s with
  | nil => simp [loadPairs]
  | cons c rest ih =>
    rw [loadPairs, loadPair]
    cases hok : accessOk s.params c.1 4 with
    | true => rw [State.memWrite_ok hok]; dsimp only; rw [ih]; simp [hok]
    | false => rw [State.memWrite_error hok]; simp [hok]

/-! ### Single bytes -/

theorem loadByte_eq_some {s t : State} {c : Word × Byte} (h : loadByte s c = some t) :
    valid s.params c.1.toNat = true ∧ t = { s with mem := s.mem.poke c.1.toNat c.2 } := by
  unfold loadByte at h
  split at h
  · cases h; exact ⟨‹_›, rfl⟩
  · cases h

theorem loadByteList_eq_some {image : List (Word × Byte)} {s u : State} (hm : s.mem.wf = true)
    (h : loadByteList s image = some u) :
    u = { s with mem := u.mem } ∧ u.mem.wf = true
      ∧ (Memory.inRange s.params s.mem = true → Memory.inRange s.params u.mem = true)
      ∧ ∀ b, (∀ c ∈ image, c.1.toNat ≠ b) → u.mem.peek b = s.mem.peek b := by
  induction image generalizing s with
  | nil => cases h; exact ⟨rfl, hm, id, fun _ _ => rfl⟩
  | cons c rest ih =>
    unfold loadByteList at h
    split at h
    · obtain ⟨hv, rfl⟩ := loadByte_eq_some ‹_›
      obtain ⟨h1, h2, h3, h4⟩ := ih (Memory.poke_wf hm _ _) h
      refine ⟨by rw [h1], h2, fun hr => h3 (Memory.inRange_poke hr hv _), fun b hb => ?_⟩
      rw [h4 b fun c hc => hb c (List.mem_cons_of_mem _ hc)]
      exact Memory.peek_poke_ne _ _ (by have := hb c (by simp); omega)
    · cases h

theorem loadByteList_append_eq_some {x y : List (Word × Byte)} {s u : State}
    (h : loadByteList s (x ++ y) = some u) :
    ∃ t, loadByteList s x = some t ∧ loadByteList t y = some u := by
  induction x generalizing s with
  | nil => exact ⟨s, rfl, h⟩
  | cons c x ih =>
    rw [List.cons_append, loadByteList] at h
    split at h
    · rename_i t ht
      obtain ⟨v, hv, hy⟩ := ih h
      exact ⟨v, by rw [loadByteList, ht]; exact hv, hy⟩
    · cases h

/-! ### The snapshot -/

/-- Word k of the grid does not wrap inside the data region. -/
theorem dataWordAddress_toNat {p : Params} (hp : p.wf = true) {k : Nat} (hk : 4 * k < p.dataSpan) :
    (dataWordAddress k).toNat = 0x10000000 + 4 * k := by
  rw [wf_params_iff] at hp
  unfold dataWordAddress
  rw [BitVec.toNat_ofNat, Nat.mod_eq_of_lt]
  · rfl
  · simp [Config.dataOffset]; omega

/-- A line of the snapshot is a readable word of the grid that is not 0. -/
theorem State.snapshotLine_eq_some_iff (s : State) (k : Nat) (x : Word × Word) :
    s.snapshotLine k = some x ↔ x.1 = dataWordAddress k ∧ s.memRead x.1 4 = .ok x.2 ∧ x.2 ≠ 0 := by
  obtain ⟨a, v⟩ := x
  unfold State.snapshotLine State.dataWord
  cases h : s.memRead (dataWordAddress k) 4 with
  | ok w =>
    dsimp only
    constructor
    · intro hh; split at hh
      · cases hh
      · cases hh; exact ⟨rfl, h, ‹_›⟩
    · rintro ⟨rfl, hr, hv⟩; rw [h] at hr; cases hr; rw [if_neg hv]
  | error e =>
    constructor
    · intro hh; cases hh
    · rintro ⟨rfl, hr, _⟩; dsimp only at hr; rw [h] at hr; cases hr

end Sys2Proof.Machine
end

