-- ==== Sys2Proof/Laws/PerInstr.lean ====
section
/-! SUPPORT. Statements made for every instruction, one lemma per constructor (LAWS.json). -/

namespace Sys2Proof.Laws.SelectedByRow

/-- The encoding of an instruction is selected by a row of the table that has the instruction's name (R78), or the
instruction is the exit trap, which is one whole word (R79). -/
def Statement (i : Instr) : Prop :=
  i = .exitTrap ∨ ∃ r ∈ opcodeTable, r.mnemonic = i.mnemonic ∧ r.selects (encode i) = true

/-- The row at place n of the table is one of its rows. -/
theorem mem_table {n : Nat} {r : Row} (h : opcodeTable[n]? = some r) : r ∈ opcodeTable :=
  List.mem_of_getElem? h

theorem add (rd rs1 rs2 : Reg) : Statement (.add rd rs1 rs2) :=
  .inr ⟨_, mem_table (n := 0) rfl, rfl, by
    simp only [Row.selects, encode, and_maskR]; simp; decide⟩

theorem sub (rd rs1 rs2 : Reg) : Statement (.sub rd rs1 rs2) :=
  .inr ⟨_, mem_table (n := 1) rfl, rfl, by
    simp only [Row.selects, encode, and_maskR]; simp; decide⟩

theorem sll (rd rs1 rs2 : Reg) : Statement (.sll rd rs1 rs2) :=
  .inr ⟨_, mem_table (n := 2) rfl, rfl, by
    simp only [Row.selects, encode, and_maskR]; simp; decide⟩

theorem slt (rd rs1 rs2 : Reg) : Statement (.slt rd rs1 rs2) :=
  .inr ⟨_, mem_table (n := 3) rfl, rfl, by
    simp only [Row.selects, encode, and_maskR]; simp; decide⟩

theorem xor (rd rs1 rs2 : Reg) : Statement (.xor rd rs1 rs2) :=
  .inr ⟨_, mem_table (n := 4) rfl, rfl, by
    simp only [Row.selects, encode, and_maskR]; simp; decide⟩

theorem srl (rd rs1 rs2 : Reg) : Statement (.srl rd rs1 rs2) :=
  .inr ⟨_, mem_table (n := 5) rfl, rfl, by
    simp only [Row.selects, encode, and_maskR]; simp; decide⟩

theorem sra (rd rs1 rs2 : Reg) : Statement (.sra rd rs1 rs2) :=
  .inr ⟨_, mem_table (n := 6) rfl, rfl, by
    simp only [Row.selects, encode, and_maskR]; simp; decide⟩

theorem or (rd rs1 rs2 : Reg) : Statement (.or rd rs1 rs2) :=
  .inr ⟨_, mem_table (n := 7) rfl, rfl, by
    simp only [Row.selects, encode, and_maskR]; simp; decide⟩

theorem and (rd rs1 rs2 : Reg) : Statement (.and rd rs1 rs2) :=
  .inr ⟨_, mem_table (n := 8) rfl, rfl, by
    simp only [Row.selects, encode, and_maskR]; simp; decide⟩

theorem mul (rd rs1 rs2 : Reg) : Statement (.mul rd rs1 rs2) :=
  .inr ⟨_, mem_table (n := 9) rfl, rfl, by
    simp only [Row.selects, encode, and_maskR]; simp; decide⟩

theorem div (rd rs1 rs2 : Reg) : Statement (.div rd rs1 rs2) :=
  .inr ⟨_, mem_table (n := 10) rfl, rfl, by
    simp only [Row.selects, encode, and_maskR]; simp; decide⟩

theorem rem (rd rs1 rs2 : Reg) : Statement (.rem rd rs1 rs2) :=
  .inr ⟨_, mem_table (n := 11) rfl, rfl, by
    simp only [Row.selects, encode, and_maskR]; simp; decide⟩

theorem addi (rd rs1 : Reg) (imm : BitVec 12) : Statement (.addi rd rs1 imm) :=
  .inr ⟨_, mem_table (n := 12) rfl, rfl, by
    simp only [Row.selects, encode, and_maskF3]; simp; decide⟩

theorem andi (rd rs1 : Reg) (imm : BitVec 12) : Statement (.andi rd rs1 imm) :=
  .inr ⟨_, mem_table (n := 13) rfl, rfl, by
    simp only [Row.selects, encode, and_maskF3]; simp; decide⟩

theorem ori (rd rs1 : Reg) (imm : BitVec 12) : Statement (.ori rd rs1 imm) :=
  .inr ⟨_, mem_table (n := 14) rfl, rfl, by
    simp only [Row.selects, encode, and_maskF3]; simp; decide⟩

theorem lb (rd rs1 : Reg) (imm : BitVec 12) : Statement (.lb rd rs1 imm) :=
  .inr ⟨_, mem_table (n := 15) rfl, rfl, by
    simp only [Row.selects, encode, and_maskF3]; simp; decide⟩

theorem lh (rd rs1 : Reg) (imm : BitVec 12) : Statement (.lh rd rs1 imm) :=
  .inr ⟨_, mem_table (n := 16) rfl, rfl, by
    simp only [Row.selects, encode, and_maskF3]; simp; decide⟩

theorem lw (rd rs1 : Reg) (imm : BitVec 12) : Statement (.lw rd rs1 imm) :=
  .inr ⟨_, mem_table (n := 17) rfl, rfl, by
    simp only [Row.selects, encode, and_maskF3]; simp; decide⟩

theorem ld (rd rs1 : Reg) (imm : BitVec 12) : Statement (.ld rd rs1 imm) :=
  .inr ⟨_, mem_table (n := 18) rfl, rfl, by
    simp only [Row.selects, encode, and_maskF3]; simp; decide⟩

theorem jalr (rd rs1 : Reg) (imm : BitVec 12) : Statement (.jalr rd rs1 imm) :=
  .inr ⟨_, mem_table (n := 19) rfl, rfl, by
    simp only [Row.selects, encode, and_maskF3]; simp; decide⟩

theorem sb (rs1 rs2 : Reg) (imm : BitVec 12) : Statement (.sb rs1 rs2 imm) :=
  .inr ⟨_, mem_table (n := 20) rfl, rfl, by
    simp only [Row.selects, encode, and_maskF3]; simp; decide⟩

theorem sh (rs1 rs2 : Reg) (imm : BitVec 12) : Statement (.sh rs1 rs2 imm) :=
  .inr ⟨_, mem_table (n := 21) rfl, rfl, by
    simp only [Row.selects, encode, and_maskF3]; simp; decide⟩

theorem sw (rs1 rs2 : Reg) (imm : BitVec 12) : Statement (.sw rs1 rs2 imm) :=
  .inr ⟨_, mem_table (n := 22) rfl, rfl, by
    simp only [Row.selects, encode, and_maskF3]; simp; decide⟩

theorem sd (rs1 rs2 : Reg) (imm : BitVec 12) : Statement (.sd rs1 rs2 imm) :=
  .inr ⟨_, mem_table (n := 23) rfl, rfl, by
    simp only [Row.selects, encode, and_maskF3]; simp; decide⟩

theorem beq (rs1 rs2 : Reg) (off : BitVec 13) : Statement (.beq rs1 rs2 off) :=
  .inr ⟨_, mem_table (n := 24) rfl, rfl, by
    simp only [Row.selects, encode, and_maskF3]; simp; decide⟩

theorem bne (rs1 rs2 : Reg) (off : BitVec 13) : Statement (.bne rs1 rs2 off) :=
  .inr ⟨_, mem_table (n := 25) rfl, rfl, by
    simp only [Row.selects, encode, and_maskF3]; simp; decide⟩

theorem blt (rs1 rs2 : Reg) (off : BitVec 13) : Statement (.blt rs1 rs2 off) :=
  .inr ⟨_, mem_table (n := 26) rfl, rfl, by
    simp only [Row.selects, encode, and_maskF3]; simp; decide⟩

theorem bge (rs1 rs2 : Reg) (off : BitVec 13) : Statement (.bge rs1 rs2 off) :=
  .inr ⟨_, mem_table (n := 27) rfl, rfl, by
    simp only [Row.selects, encode, and_maskF3]; simp; decide⟩

theorem lui (rd : Reg) (imm : BitVec 20) : Statement (.lui rd imm) :=
  .inr ⟨_, mem_table (n := 28) rfl, rfl, by
    simp only [Row.selects, encode, and_maskOp]; simp; decide⟩

theorem auipc (rd : Reg) (imm : BitVec 20) : Statement (.auipc rd imm) :=
  .inr ⟨_, mem_table (n := 29) rfl, rfl, by
    simp only [Row.selects, encode, and_maskOp]; simp; decide⟩

theorem jal (rd : Reg) (off : BitVec 21) : Statement (.jal rd off) :=
  .inr ⟨_, mem_table (n := 30) rfl, rfl, by
    simp only [Row.selects, encode, and_maskOp]; simp; decide⟩

theorem exitTrap : Statement .exitTrap := .inl rfl

end Sys2Proof.Laws.SelectedByRow
end

