-- ==== Sys2Proof/Tests/Slice0.lean ====
section
/-! SUPPORT. Tests. Expected values come from the examples of the family files and from 95_test_vectors.md, named above
each test. A theorem `witness_<Name>` shows values that meet the hypotheses of the obligation of that name. -/

namespace Sys2Proof.Tests

open Sys2Proof Sys2Proof.Machine

/-! ### Helpers -/

/-- Reset with x1 and x2 set. -/
def two (a b : Word) : State := (State.reset.setReg 1 a).setReg 2 b

/-- x1 = DATA_OFFSET, x2 = b, and the given bytes from DATA_OFFSET up. -/
def data (bytes : Word) (b : Word) : State :=
  { two 0x10000000 b with mem := Memory.writeLe [] 0x10000000 bytes 4 }

/-- One step that runs w at pc. -/
def run (s : State) (w : Nat) : Outcome := step (s.withFetchWord 32 w)

def nextOf : Outcome → Option State
  | .next t => some t
  | .fault _ => none
  | .refused _ => none

def faultOf : Outcome → Option Fault
  | .next _ => none
  | .fault f => some f
  | .refused _ => none

/-- x[r] after one step that runs w. -/
def regAfter (s : State) (w : Nat) (r : Reg) : Option Word := (nextOf (run s w)).map fun t => t.reg r

/-- pc after one step that runs w. -/
def pcAfter (s : State) (w : Nat) : Option Word := (nextOf (run s w)).map fun t => t.pc

/-- The bytes from DATA_OFFSET up after one step that runs w, as a word. -/
def dataAfter (s : State) (w : Nat) : Option Word := (nextOf (run s w)).map fun t => t.mem.readLe 0x10000000 4

/-- Reset with other parameters. -/
def withParams (p : Params) (s : State) : State := { s with params := p }

def riscvDiv : Params := { resetParams with divOverflow := .riscv }
def alignedOnly : Params := { resetParams with allowMisaligned := false }
def namedOnly : Params := { resetParams with admitUnnamed := false }

/-! ### WellFormed: each check refuses an ill-formed term -/

theorem test_wf_beq_odd_refused : (Instr.beq 1 2 7).wf = false := by decide
theorem test_wf_bne_odd_refused : (Instr.bne 1 0 (-3)).wf = false := by decide
theorem test_wf_blt_odd_refused : (Instr.blt 1 2 4095).wf = false := by decide
theorem test_wf_bge_odd_refused : (Instr.bge 1 2 (-4095)).wf = false := by decide
theorem test_wf_jal_odd_refused : (Instr.jal 1 17).wf = false := by decide
theorem test_wf_even_accepted : (Instr.bge 1 2 (-4096)).wf = true ∧ (Instr.jal 1 (-1048576)).wf = true := by decide

/-! ### Decoding: words put together field by field from R65 to R70 and R78, and the hexadecimal words that the family
files give for them -/

/-- R117 to R128, examples with rd = 3, rs1 = 1, rs2 = 2. -/
theorem test_decode_r :
    decodeWord (0b0000000#7 ++ 0b00010#5 ++ 0b00001#5 ++ 0b000#3 ++ 0b00011#5 ++ 0b0110011#7) = .instr (.add 3 1 2)
    ∧ decodeWord (0b0100000#7 ++ 0b00010#5 ++ 0b00001#5 ++ 0b000#3 ++ 0b00011#5 ++ 0b0110011#7) = .instr (.sub 3 1 2)
    ∧ decodeWord (0b0000000#7 ++ 0b00010#5 ++ 0b00001#5 ++ 0b001#3 ++ 0b00011#5 ++ 0b0110011#7) = .instr (.sll 3 1 2)
    ∧ decodeWord (0b0000000#7 ++ 0b00010#5 ++ 0b00001#5 ++ 0b010#3 ++ 0b00011#5 ++ 0b0110011#7) = .instr (.slt 3 1 2)
    ∧ decodeWord (0b0000000#7 ++ 0b00010#5 ++ 0b00001#5 ++ 0b100#3 ++ 0b00011#5 ++ 0b0110011#7) = .instr (.xor 3 1 2)
    ∧ decodeWord (0b0000000#7 ++ 0b00010#5 ++ 0b00001#5 ++ 0b101#3 ++ 0b00011#5 ++ 0b0110011#7) = .instr (.srl 3 1 2)
    ∧ decodeWord (0b0100000#7 ++ 0b00010#5 ++ 0b00001#5 ++ 0b101#3 ++ 0b00011#5 ++ 0b0110011#7) = .instr (.sra 3 1 2)
    ∧ decodeWord (0b0000000#7 ++ 0b00010#5 ++ 0b00001#5 ++ 0b110#3 ++ 0b00011#5 ++ 0b0110011#7) = .instr (.or 3 1 2)
    ∧ decodeWord (0b0000000#7 ++ 0b00010#5 ++ 0b00001#5 ++ 0b111#3 ++ 0b00011#5 ++ 0b0110011#7) = .instr (.and 3 1 2)
    ∧ decodeWord (0b0000001#7 ++ 0b00010#5 ++ 0b00001#5 ++ 0b000#3 ++ 0b00011#5 ++ 0b0110011#7) = .instr (.mul 3 1 2)
    ∧ decodeWord (0b0000001#7 ++ 0b00010#5 ++ 0b00001#5 ++ 0b100#3 ++ 0b00011#5 ++ 0b0110011#7) = .instr (.div 3 1 2)
    ∧ decodeWord (0b0000001#7 ++ 0b00010#5 ++ 0b00001#5 ++ 0b110#3 ++ 0b00011#5 ++ 0b0110011#7) = .instr (.rem 3 1 2) := by
  decide

/-- The same twelve as the hexadecimal words of R117 to R128. -/
theorem test_decode_r_hex :
    decodeTableWord 32 0x002081B3 = some (.add 3 1 2) ∧ decodeTableWord 32 0x402081B3 = some (.sub 3 1 2)
    ∧ decodeTableWord 32 0x002091B3 = some (.sll 3 1 2) ∧ decodeTableWord 32 0x0020A1B3 = some (.slt 3 1 2)
    ∧ decodeTableWord 32 0x0020C1B3 = some (.xor 3 1 2) ∧ decodeTableWord 32 0x0020D1B3 = some (.srl 3 1 2)
    ∧ decodeTableWord 32 0x4020D1B3 = some (.sra 3 1 2) ∧ decodeTableWord 32 0x0020E1B3 = some (.or 3 1 2)
    ∧ decodeTableWord 32 0x0020F1B3 = some (.and 3 1 2) ∧ decodeTableWord 32 0x022081B3 = some (.mul 3 1 2)
    ∧ decodeTableWord 32 0x0220C1B3 = some (.div 3 1 2) ∧ decodeTableWord 32 0x0220E1B3 = some (.rem 3 1 2) := by
  decide

/-- R130 to R132, R134 to R137, R155. -/
theorem test_decode_i :
    decodeWord (0b000000000101#12 ++ 0b00000#5 ++ 0b000#3 ++ 0b00001#5 ++ 0b0010011#7) = .instr (.addi 1 0 5)
    ∧ decodeWord (0b111111110000#12 ++ 0b00001#5 ++ 0b111#3 ++ 0b00010#5 ++ 0b0010011#7) = .instr (.andi 2 1 (-16))
    ∧ decodeWord (0b011111111111#12 ++ 0b00001#5 ++ 0b110#3 ++ 0b00010#5 ++ 0b0010011#7) = .instr (.ori 2 1 0x7FF)
    ∧ decodeWord (0b000000000000#12 ++ 0b00001#5 ++ 0b000#3 ++ 0b00101#5 ++ 0b0000011#7) = .instr (.lb 5 1 0)
    ∧ decodeWord (0b000000000010#12 ++ 0b00001#5 ++ 0b001#3 ++ 0b00101#5 ++ 0b0000011#7) = .instr (.lh 5 1 2)
    ∧ decodeWord (0b000000000000#12 ++ 0b00001#5 ++ 0b010#3 ++ 0b00011#5 ++ 0b0000011#7) = .instr (.lw 3 1 0)
    ∧ decodeWord (0b000000000000#12 ++ 0b00001#5 ++ 0b011#3 ++ 0b00011#5 ++ 0b0000011#7) = .instr (.ld 3 1 0)
    ∧ decodeWord (0b000000001000#12 ++ 0b00101#5 ++ 0b000#3 ++ 0b00001#5 ++ 0b1100111#7) = .instr (.jalr 1 5 8) := by
  decide

theorem test_decode_i_hex :
    decodeTableWord 32 0x00500093 = some (.addi 1 0 5) ∧ decodeTableWord 32 0x80000093 = some (.addi 1 0 (-2048))
    ∧ decodeTableWord 32 0xFF00F113 = some (.andi 2 1 (-16)) ∧ decodeTableWord 32 0x7FF0E113 = some (.ori 2 1 0x7FF)
    ∧ decodeTableWord 32 0x00008283 = some (.lb 5 1 0) ∧ decodeTableWord 32 0x00209283 = some (.lh 5 1 2)
    ∧ decodeTableWord 32 0x0000A183 = some (.lw 3 1 0) ∧ decodeTableWord 32 0x0000B183 = some (.ld 3 1 0)
    ∧ decodeTableWord 32 0x008280E7 = some (.jalr 1 5 8) := by
  decide

/-- R140 to R143; the word with displacement -1 is from 95_test_vectors.md 2.1. -/
theorem test_decode_s :
    decodeWord (0b0000000#7 ++ 0b00010#5 ++ 0b00001#5 ++ 0b000#3 ++ 0b00000#5 ++ 0b0100011#7) = .instr (.sb 1 2 0)
    ∧ decodeWord (0b0000000#7 ++ 0b00010#5 ++ 0b00001#5 ++ 0b001#3 ++ 0b00010#5 ++ 0b0100011#7) = .instr (.sh 1 2 2)
    ∧ decodeWord (0b1111111#7 ++ 0b00010#5 ++ 0b00001#5 ++ 0b010#3 ++ 0b11111#5 ++ 0b0100011#7) = .instr (.sw 1 2 (-1))
    ∧ decodeWord (0b0000000#7 ++ 0b00010#5 ++ 0b00001#5 ++ 0b011#3 ++ 0b00000#5 ++ 0b0100011#7) = .instr (.sd 1 2 0)
    ∧ decodeTableWord 32 0x00208023 = some (.sb 1 2 0) ∧ decodeTableWord 32 0x00209123 = some (.sh 1 2 2)
    ∧ decodeTableWord 32 0xFE20AFA3 = some (.sw 1 2 (-1)) ∧ decodeTableWord 32 0x0020B023 = some (.sd 1 2 0) := by
  decide

/-- R146, R147, and the largest and smallest offsets of 95_test_vectors.md 2.1: imm[12], imm[10:5], rs2, rs1, funct3,
imm[4:1], imm[11], opcode (R68). -/
theorem test_decode_b :
    decodeWord (0b0#1 ++ 0b000000#6 ++ 0b00010#5 ++ 0b00001#5 ++ 0b000#3 ++ 0b0100#4 ++ 0b0#1 ++ 0b1100011#7)
        = .instr (.beq 1 2 8)
    ∧ decodeWord (0b1#1 ++ 0b111111#6 ++ 0b00000#5 ++ 0b00001#5 ++ 0b001#3 ++ 0b1110#4 ++ 0b1#1 ++ 0b1100011#7)
        = .instr (.bne 1 0 (-4))
    ∧ decodeWord (0b0#1 ++ 0b111111#6 ++ 0b00010#5 ++ 0b00001#5 ++ 0b100#3 ++ 0b1111#4 ++ 0b1#1 ++ 0b1100011#7)
        = .instr (.blt 1 2 4094)
    ∧ decodeWord (0b1#1 ++ 0b000000#6 ++ 0b00010#5 ++ 0b00001#5 ++ 0b101#3 ++ 0b0000#4 ++ 0b0#1 ++ 0b1100011#7)
        = .instr (.bge 1 2 (-4096))
    ∧ decodeTableWord 32 0x00208463 = some (.beq 1 2 8) ∧ decodeTableWord 32 0xFE009EE3 = some (.bne 1 0 (-4))
    ∧ decodeTableWord 32 0x7E20CFE3 = some (.blt 1 2 4094) ∧ decodeTableWord 32 0x8020D063 = some (.bge 1 2 (-4096)) := by
  decide

/-- R151 to R153, R79 and 95_test_vectors.md 2.1: the J format is imm[20], imm[10:1], imm[11], imm[19:12], rd, opcode
(R70). -/
theorem test_decode_u_j_trap :
    decodeWord (0b11111111111111111111#20 ++ 0b00001#5 ++ 0b0110111#7) = .instr (.lui 1 0xFFFFF)
    ∧ decodeWord (0b00000000000000000001#20 ++ 0b00101#5 ++ 0b0010111#7) = .instr (.auipc 5 1)
    ∧ decodeWord (0b0#1 ++ 0b0000001000#10 ++ 0b0#1 ++ 0b00000000#8 ++ 0b00001#5 ++ 0b1101111#7) = .instr (.jal 1 16)
    ∧ decodeTableWord 32 0x100000B7 = some (.lui 1 0x10000) ∧ decodeTableWord 32 0x00001297 = some (.auipc 5 1)
    ∧ decodeTableWord 32 0x010000EF = some (.jal 1 16) ∧ decodeTableWord 32 0x7FFFF0EF = some (.jal 1 1048574)
    ∧ decodeTableWord 32 0xFF9FF06F = some (.jal 0 (-8)) ∧ decodeTableWord 32 0xFFFFFFFF = some .exitTrap := by
  decide

/-- The rejected words of 95_test_vectors.md 2.1. -/
theorem test_decode_rejects :
    decodeWord 0x00001013 = .illegal ∧ decodeWord 0x40005013 = .illegal ∧ decodeWord 0x02001033 = .illegal
    ∧ decodeWord 0x80000033 = .illegal ∧ decodeWord 0xFE000033 = .illegal ∧ decodeWord 0x00004003 = .illegal
    ∧ decodeWord 0x00004023 = .illegal ∧ decodeWord 0x00002063 = .illegal ∧ decodeWord 0x00001067 = .illegal
    ∧ decodeWord 0x00000000 = .nopUnknown ∧ decodeWord 0x0000007F = .nopUnknown ∧ decodeWord 0xFFFFFF7F = .nopUnknown
    ∧ decodeTableWord 32 0x00001013 = none ∧ decodeTableWord 32 0x0000007F = none := by
  decide

/-- The encoder, against words of 95_test_vectors.md 2.1. -/
theorem test_encode :
    encode (.sw 1 2 (-1)) = 0xFE20AFA3 ∧ encode (.blt 1 2 4094) = 0x7E20CFE3 ∧ encode (.jal 1 (-1048576)) = 0x800000EF
    ∧ encode (.addi 1 0 (-2048)) = 0x80000093 ∧ encode (.lui 1 0xFFFFF) = 0xFFFFF0B7
    ∧ encode (.rem 3 1 2) = 0x0220E1B3 := by
  decide

/-! ### One step of each instruction: 95_test_vectors.md 2.3 to 2.8 and the examples of the family files -/

/-- R117: signed overflow wraps, and x0 is written (R20). -/
theorem test_add : regAfter (two 0x7FFFFFFF 1) 0x002081B3 3 = some 0x80000000
    ∧ regAfter (two 3 4) 0x00208033 0 = some 7 := by decide
theorem test_sub : regAfter (two 0 1) 0x402081B3 3 = some 0xFFFFFFFF
    ∧ regAfter (two 5 7) 0x402081B3 3 = some 0xFFFFFFFE := by decide
/-- The amount is the low five bits of x2. -/
theorem test_sll : regAfter (two 1 32) 0x002091B3 3 = some 1
    ∧ regAfter (two 1 0xFFFFFFFF) 0x002091B3 3 = some 0x80000000 := by decide
theorem test_slt : regAfter (two 0xFFFFFFFF 1) 0x0020A1B3 3 = some 1
    ∧ regAfter (two 0x7FFFFFFF 0x80000000) 0x0020A1B3 3 = some 0 := by decide
theorem test_xor : regAfter (two 0xFF00FF00 0x0F0F0F0F) 0x0020C1B3 3 = some 0xF00FF00F := by decide
theorem test_srl : regAfter (two 0x80000000 4) 0x0020D1B3 3 = some 0x08000000
    ∧ regAfter (two 0xFFFFFFFF 31) 0x0020D1B3 3 = some 1 := by decide
theorem test_sra : regAfter (two 0x80000000 4) 0x4020D1B3 3 = some 0xF8000000
    ∧ regAfter (two 0x7FFFFFFF 31) 0x4020D1B3 3 = some 0 := by decide
theorem test_or : regAfter (two 0xF0 0x0F) 0x0020E1B3 3 = some 0xFF := by decide
theorem test_and : regAfter (two 0xF0 0x3C) 0x0020F1B3 3 = some 0x30 := by decide
theorem test_mul : regAfter (two 0xFFFFFFFF 0xFFFFFFFF) 0x022081B3 3 = some 1
    ∧ regAfter (two 0x10000 0x10000) 0x022081B3 3 = some 0 := by decide
theorem test_div : regAfter (two 7 0xFFFFFFFE) 0x0220C1B3 3 = some 0xFFFFFFFD
    ∧ regAfter (two 7 0) 0x0220C1B3 3 = some 0 := by decide
theorem test_div_overflow :
    faultOf (run (two 0x80000000 0xFFFFFFFF) 0x0220C1B3) = some (.divOverflow 0x0220C1B3)
    ∧ regAfter (withParams riscvDiv (two 0x80000000 0xFFFFFFFF)) 0x0220C1B3 3 = some 0x80000000 := by decide
theorem test_rem : regAfter (two 7 0xFFFFFFFE) 0x0220E1B3 3 = some 1
    ∧ regAfter (two 0xFFFFFFF9 2) 0x0220E1B3 3 = some 0xFFFFFFFF := by decide
theorem test_rem_overflow :
    faultOf (run (two 0x80000000 0xFFFFFFFF) 0x0220E1B3) = some (.divOverflow 0x0220E1B3)
    ∧ regAfter (withParams riscvDiv (two 0x80000000 0xFFFFFFFF)) 0x0220E1B3 3 = some 0 := by decide
theorem test_addi : regAfter (two 0xFFFFFFFF 0) 0x00108093 1 = some 0
    ∧ regAfter State.reset 0x80000093 1 = some 0xFFFFF800 := by decide
theorem test_andi : regAfter (two 0x12345678 0) 0xFF00F113 2 = some 0x12345670 := by decide
theorem test_ori : regAfter (two 1 0) 0x8000E113 2 = some 0xFFFFF801 := by decide
/-- Byte 0x80 is sign-extended, and with rd = rs1 the address used the old base. -/
theorem test_lb : regAfter (data 0x80 0) 0x00008283 5 = some 0xFFFFFF80
    ∧ regAfter (data 0xAA 0) 0x00008083 1 = some 0xFFFFFFAA := by decide
/-- Bytes 11 22 33, a misaligned half-word. -/
theorem test_lh : regAfter (data 0x00332211 0) 0x00109283 5 = some 0x00003322
    ∧ regAfter (data 0x80000000 0) 0x00209283 5 = some 0xFFFF8000 := by decide
theorem test_lw : regAfter (data 0x12345678 0) 0x0000A183 3 = some 0x12345678
    ∧ faultOf (run (two 0xFFE 0) 0x0000A183) = some (.memOutOfRange 0xFFE 4) := by decide
theorem test_ld : faultOf (run (two 0x10000000 0) 0x0000B183) = some (.unsupportedWidth 0x0000B183) := by decide
theorem test_sb : dataAfter (data 0xAABBCCDD 0x12345678) 0x00208023 = some 0xAABBCC78 := by decide
theorem test_sh : dataAfter (data 0xAABBCCDD 0x12345678) 0x00209123 = some 0x5678CCDD := by decide
theorem test_sw : dataAfter (data 0 0x12345678) 0x0020A023 = some 0x12345678
    ∧ faultOf (run (two 0x1000 0) 0x0020A023) = some (.memOutOfRange 0x1000 4) := by decide
theorem test_sd : faultOf (run (two 0x10000000 0) 0x0020B023) = some (.unsupportedWidth 0x0020B023) := by decide
theorem test_beq : pcAfter { two 5 5 with pc := 0x10 } 0x00208463 = some 0x18
    ∧ pcAfter { two 5 6 with pc := 0x10 } 0x00208463 = some 0x14 := by decide
theorem test_bne : pcAfter { two 1 0 with pc := 8 } 0xFE009EE3 = some 4
    ∧ pcAfter { two 0 0 with pc := 8 } 0xFE009EE3 = some 12 := by decide
theorem test_blt : pcAfter { two 0xFFFFFFFF 0 with pc := 0x20 } 0xFE20CCE3 = some 0x18
    ∧ pcAfter { two 0x7FFFFFFF 0x80000000 with pc := 0x20 } 0xFE20CCE3 = some 0x24 := by decide
theorem test_bge : pcAfter (two 5 5) 0x0020D663 = some 12
    ∧ pcAfter (two 0x80000000 0x7FFFFFFF) 0x0020D663 = some 4 := by decide
theorem test_lui : regAfter State.reset 0x100000B7 1 = some 0x10000000 := by decide
theorem test_auipc : regAfter { State.reset with pc := 8 } 0x00001297 5 = some 0x00001008 := by decide
/-- The link is pc + 4; with rd = 0 x0 stays what it was. -/
theorem test_jal : pcAfter { State.reset with pc := 4 } 0x010000EF = some 0x14
    ∧ regAfter { State.reset with pc := 4 } 0x010000EF 1 = some 8 := by decide
theorem test_jal_rd_zero : regAfter (State.reset.setReg 0 9) 0xFF9FF06F 0 = some 9 := by decide
theorem test_jalr : pcAfter { State.reset.setReg 5 0x101 with pc := 0x20 } 0x008280E7 = some 0x108
    ∧ regAfter { State.reset.setReg 5 0x101 with pc := 0x20 } 0x008280E7 1 = some 0x24 := by decide
/-- R158. -/
theorem test_exit_trap :
    (nextOf (run (two 1 2) 0xFFFFFFFF)).map (fun t => (t.status, t.pc, t.cycles, t.ir))
      = some (.halted, 0, 0, 0xFFFFFFFF) := by decide
/-- R80. -/
theorem test_nop :
    (nextOf (run State.reset 0x0000007F)).map (fun t => (t.pc, t.cycles)) = some (4, 1) := by decide
theorem test_illegal : faultOf (run State.reset 0x00001067) = some (.illegalEncoding 0x00001067) := by decide
/-- R172: the first address past the low region. -/
theorem test_fetch_fault : faultOf (step { State.reset with pc := 0x1000 }) = some (.fetchOutOfRange 0x1000) := by decide

/-! ### Witnesses: reset, registers, memory -/

theorem witness_ResetMeetsInvariant :
    resetParams.wf = true
    ∧ Params.wf { resetParams with memSize := 4096, dataSpan := 0 } = true
    ∧ Params.wf { resetParams with memSize := 4096 + (2 ^ 32 - 0x10000000), dataSpan := 0xF0000000 } = true := by decide

/-- The register after x0 keeps its value when x0 is written. -/
theorem witness_RegistersAreDistinct :
    (1 : Reg) ≠ 0 ∧ ((two 5 6).setReg 0 7).reg 1 = 5 ∧ ((two 5 6).setReg 31 7).reg 31 = 7 := by decide

/-- 95_test_vectors.md 2.2: the edges of both regions, and the alignment parameter of R48. -/
theorem witness_AccessCheckIsTwoRegions :
    accessOk resetParams 0 1 = true ∧ accessOk resetParams 0xFFF 1 = true ∧ accessOk resetParams 0x1000 1 = false
    ∧ accessOk resetParams 0x0FFFFFFF 1 = false ∧ accessOk resetParams 0x10000000 4 = true
    ∧ accessOk resetParams 0x10000FFF 1 = true ∧ accessOk resetParams 0x10001000 1 = false
    ∧ accessOk resetParams 0xFFC 4 = true ∧ accessOk resetParams 0xFFE 4 = false ∧ accessOk resetParams 0xFFE 2 = true
    ∧ accessOk resetParams 0x10000FFD 4 = false ∧ accessOk resetParams 0xFFFFFFFE 4 = false
    ∧ accessOk alignedOnly 2 4 = false ∧ accessOk alignedOnly 2 2 = true ∧ accessOk alignedOnly 4 4 = true := by decide

/-- The last byte of a buffer of the largest size, at 0xFFFFFFFF. -/
def largest : Params := { resetParams with memSize := 4096 + (2 ^ 32 - 0x10000000) }

theorem witness_TranslationIsOneToOneOnValid :
    resetParams.wf = true ∧ valid resetParams 0xFFF = true ∧ bufferIndex 0xFFF = 4095
    ∧ bufferIndex 0x0FFFFFFF = 0x0FFFFFFF ∧ valid resetParams 0x0FFFFFFF = false
    ∧ valid resetParams 0x10000000 = true ∧ bufferIndex 0x10000000 = 4096
    ∧ valid resetParams 0x10000FFF = true ∧ bufferIndex 0x10000FFF = 8191
    ∧ largest.wf = true ∧ accessOk largest 0xFFFFFFFC 4 = true ∧ accessOk largest 0xFFFFFFFD 4 = false := by decide

theorem witness_MemReadIsLittleEndian :
    accessOk (data 0x33221100 0).params 0x10000003 1 = true ∧ accessOk (data 0x33221100 0).params 0x10000FFE 2 = true
    ∧ accessOk (data 0x33221100 0).params 0x10000FFC 4 = true
    ∧ accessOk (data 0x33221100 0).params 0x10000FFF 2 = false := by decide

theorem witness_MemWriteSetsExactlyItsBytes :
    (data 1 2).mem.wf = true ∧ accessOk (data 1 2).params 0xFFF 1 = true ∧ accessOk (data 1 2).params 0xFFE 2 = true
    ∧ accessOk (data 1 2).params 0x10000001 4 = true ∧ accessOk (data 1 2).params 0xFFD 4 = false := by decide

theorem witness_FetchReadIsMemReadAtPc :
    State.reset.memRead State.reset.pc 4 = .ok 0
    ∧ State.memRead { State.reset with pc := 0xFFD } 0xFFD 4 = .error (.memOutOfRange 0xFFD 4) := ⟨rfl, rfl⟩

/-! ### Witnesses: encoding -/

theorem witness_DecodeOfEncodeIsIdentity :
    (Instr.addi 31 31 (-2048)).wf = true ∧ (Instr.bge 1 2 (-4096)).wf = true ∧ (Instr.blt 1 2 4094).wf = true
    ∧ (Instr.jal 31 (-1048576)).wf = true ∧ Instr.exitTrap.wf = true := by decide

theorem witness_EncodeOfDecodeIsIdentity :
    decodeWord 0x8020D063 = .instr (.bge 1 2 (-4096)) ∧ decodeWord 0xFFFFFFFF = .instr .exitTrap := by decide

/-- A word of each kind. -/
theorem witness_DecoderFollowsOpcodeTable :
    (0x402081B3 : Word) ≠ Config.trapWord ∧ decodeWord 0x402081B3 = .instr (.sub 3 1 2)
    ∧ (0x02001033 : Word) ≠ Config.trapWord ∧ decodeWord 0x02001033 = .illegal
    ∧ (0xFFFFFF7F : Word) ≠ Config.trapWord ∧ decodeWord 0xFFFFFF7F = .nopUnknown := by decide

theorem witness_UnnamedRowsFollowParameter :
    resetParams.admitUnnamed = true ∧ namedOnly.admitUnnamed = false
    ∧ decodeWord 0x402081B3 = .instr (.sub 3 1 2) ∧ classify namedOnly 0x402081B3 = .illegal
    ∧ decodeWord 0x002081B3 = .instr (.add 3 1 2) ∧ classify namedOnly 0x002081B3 = .instr (.add 3 1 2)
    ∧ classify namedOnly 0x0000007F = .nopUnknown := by decide

/-! ### Witnesses: the step -/

theorem witness_StepRunsDecodedInstruction :
    let s := State.reset.withFetchWord 32 0x00500093
    s.status = .running ∧ s.fetchRead = .ok 0x00500093 ∧ classify s.params 0x00500093 = .instr (.addi 1 0 5) :=
  ⟨rfl, rfl, by decide⟩

theorem witness_UnknownOpcodeRunsAsNoOp :
    let s := State.reset.withFetchWord 32 0xFFFFFF7F
    s.status = .running ∧ s.fetchRead = .ok 0xFFFFFF7F ∧ (0xFFFFFF7F : Word) ≠ Config.trapWord
    ∧ opcodeOf 0xFFFFFF7F ∉ knownOpcodes := ⟨rfl, rfl, by decide, by decide⟩

theorem witness_IllegalWordsFault_unmatched :
    let s := State.reset.withFetchWord 32 0x00001067
    s.status = .running ∧ s.fetchRead = .ok 0x00001067 ∧ opcodeOf 0x00001067 ∈ knownOpcodes
    ∧ ∀ r ∈ opcodeTable, r.selects 0x00001067 = false := ⟨rfl, rfl, by decide, by decide⟩

theorem witness_IllegalWordsFault_unnamed :
    let s := (withParams namedOnly State.reset).withFetchWord 32 0x402081B3
    s.status = .running ∧ s.fetchRead = .ok 0x402081B3 ∧ s.params.admitUnnamed = false
    ∧ ⟨"sub", 0x40000033, 0xFE00707F⟩ ∈ opcodeTable
    ∧ Row.selects ⟨"sub", 0x40000033, 0xFE00707F⟩ 0x402081B3 = true := ⟨rfl, rfl, rfl, by decide, by decide⟩

theorem witness_InvalidFetchFaults :
    let s := { State.reset with pc := 0xFFE }
    s.status = .running ∧ accessOk s.params s.pc 4 = false := by decide

theorem witness_TrapWordHalts :
    let s := State.reset.withFetchWord 32 0xFFFFFFFF
    s.status = .running ∧ s.fetchRead = .ok Config.trapWord := ⟨rfl, rfl⟩

theorem witness_HaltsExactlyOnTheTrapWord :
    (nextOf (run State.reset 0xFFFFFFFF)).isSome = true ∧ (nextOf (run State.reset 0x00500093)).isSome = true := by decide

theorem witness_StoppedCoreTakesNoStep :
    State.reset.halt.status ≠ .running ∧ (State.reset.faulted (.fetchOutOfRange 0)).status ≠ .running := by decide

theorem witness_RunningCoreIsNeverRefused : State.reset.status = .running := rfl

/-- One state for each of the five causes. -/
theorem witness_FaultsComeFromTheFiveCauses :
    step { State.reset with pc := 0x1000 } = .fault (.fetchOutOfRange 0x1000)
    ∧ run State.reset 0x00001067 = .fault (.illegalEncoding 0x00001067)
    ∧ run State.reset 0x0000B183 = .fault (.unsupportedWidth 0x0000B183)
    ∧ run (two 0x80000000 0xFFFFFFFF) 0x0220C1B3 = .fault (.divOverflow 0x0220C1B3)
    ∧ run (two 0x1000 0) 0x0000A183 = .fault (.memOutOfRange 0x1000 4)
    ∧ run (two 0x1000 0) 0x0020A023 = .fault (.memOutOfRange 0x1000 4) := ⟨rfl, rfl, rfl, rfl, rfl, rfl⟩

theorem witness_FaultCommitsNothing :
    run (two 0x1000 0) 0x0020A023 = .fault (.memOutOfRange 0x1000 4) := rfl

theorem witness_StepKeepsInvariant :
    (State.reset.withFetchWord 32 0x0020A023).inv = true
    ∧ (nextOf (run State.reset 0x0020A023)).isSome = true
    ∧ (nextOf (run State.reset 0xFF9FF06F)).isSome = true := by decide

/-- P1's first pair and a data pair. -/
def image : List (Word × Word) := [(0, 0x00500093), (0x10000001, 0x44332211), (0x10000003, 0x88776655)]

theorem witness_EveryRunKeepsInvariant : (launch resetParams image).isSome = true := by decide

theorem witness_OnlyTheDestinationChanges :
    let s := State.reset.withFetchWord 32 0x00500093
    s.fetchRead = .ok 0x00500093 ∧ (nextOf (step s)).map (fun t => t.reg 1) = some 5 ∧ s.reg 1 = 0 :=
  ⟨rfl, by decide, by decide⟩

theorem witness_OnlyStoresChangeMemory :
    let s := (data 0 0x12345678).withFetchWord 32 0x0020A023
    s.fetchRead = .ok 0x0020A023 ∧ (nextOf (step s)).map (fun t => t.mem.peek 0x10000003) = some 0x12
    ∧ s.mem.peek 0x10000003 = 0 := ⟨rfl, by decide, by decide⟩

/-- The trap, a straight instruction, and a taken branch. -/
theorem witness_CompletionCountsOneCycle :
    (State.reset.withFetchWord 32 0xFFFFFFFF).fetchRead = .ok Config.trapWord
    ∧ (nextOf (run State.reset 0xFFFFFFFF)).isSome = true
    ∧ (State.reset.withFetchWord 32 0x00500093).fetchRead = .ok 0x00500093
    ∧ (nextOf (run State.reset 0x00500093)).isSome = true
    ∧ (State.reset.withFetchWord 32 0x00208463).fetchRead = .ok 0x00208463
    ∧ pcAfter State.reset 0x00208463 = some 8 := ⟨rfl, by decide, rfl, by decide, rfl, by decide⟩

theorem witness_DecodeStagesTheLatches :
    let s := (two 5 7).withFetchWord 32 0x002081B3
    s.fetchRead = .ok 0x002081B3 ∧ (nextOf (step s)).isSome = true
    ∧ classify s.params 0x002081B3 = .instr (.add 3 1 2) ∧ (Instr.add 3 1 2) ≠ .exitTrap :=
  ⟨rfl, by decide, by decide, by decide⟩

theorem witness_ParametersNeverChange : (nextOf (step State.reset)).isSome = true := by decide

theorem witness_NormalEndExcludesFault : EndsNormally (State.reset.withFetchWord 32 0xFFFFFFFF) := ⟨1, by decide⟩

/-! ### Witnesses: the instructions -/

/-- A zero divisor, a quotient, and the overflow under each policy. -/
theorem witness_DivideRoundsTowardZero :
    (two 7 0).reg 2 = 0
    ∧ ((two 0xFFFFFFF9 2).reg 2 ≠ 0 ∧ ¬ ((two 0xFFFFFFF9 2).reg 1 = 0x80000000 ∧ (two 0xFFFFFFF9 2).reg 2 = 0xFFFFFFFF))
    ∧ ((two 0x80000000 1).reg 2 ≠ 0
        ∧ ¬ ((two 0x80000000 1).reg 1 = 0x80000000 ∧ (two 0x80000000 1).reg 2 = 0xFFFFFFFF))
    ∧ ((two 0x80000000 0xFFFFFFFF).reg 1 = 0x80000000 ∧ (two 0x80000000 0xFFFFFFFF).reg 2 = 0xFFFFFFFF
        ∧ (two 0x80000000 0xFFFFFFFF).params.divOverflow = .fault)
    ∧ (withParams riscvDiv (two 0x80000000 0xFFFFFFFF)).params.divOverflow = .riscv := by decide

theorem witness_RemainderTakesDividendSign :
    (two 7 0).reg 2 = 0
    ∧ ((two 7 0xFFFFFFFE).reg 2 ≠ 0 ∧ ¬ ((two 7 0xFFFFFFFE).reg 1 = 0x80000000 ∧ (two 7 0xFFFFFFFE).reg 2 = 0xFFFFFFFF))
    ∧ ((two 0x80000000 0xFFFFFFFF).reg 1 = 0x80000000 ∧ (two 0x80000000 0xFFFFFFFF).reg 2 = 0xFFFFFFFF
        ∧ (two 0x80000000 0xFFFFFFFF).params.divOverflow = .fault)
    ∧ (withParams riscvDiv (two 0x80000000 0xFFFFFFFF)).params.divOverflow = .riscv := by decide

/-- The last byte, half-word and word of the data region, and the first address past each region. -/
theorem witness_LoadsReadAndSignExtend :
    (two 0x10000FFC 0).reg 1 + BitVec.ofInt 32 (0x003 : BitVec 12).toInt = 0x10000FFF
    ∧ accessOk (two 0x10000FFC 0).params 0x10000FFF 1 = true
    ∧ accessOk (two 0x10000FFC 0).params 0x10000FFE 2 = true
    ∧ accessOk (two 0x10000FFC 0).params 0x10000FFC 4 = true
    ∧ accessOk (two 0x10000FFC 0).params 0x10001000 1 = false
    ∧ accessOk (two 0x10000FFC 0).params 0x10000FFF 2 = false
    ∧ accessOk (two 0x10000FFC 0).params 0x10000FFD 4 = false := by decide

theorem witness_StoresWriteLowBytes :
    (data 1 2).mem.wf = true
    ∧ (data 1 2).reg 1 + BitVec.ofInt 32 (-1 : BitVec 12).toInt = 0x0FFFFFFF
    ∧ accessOk (data 1 2).params 0x0FFFFFFF 1 = false
    ∧ (data 1 2).reg 1 + BitVec.ofInt 32 (0x7FF : BitVec 12).toInt = 0x100007FF
    ∧ accessOk (data 1 2).params 0x100007FF 1 = true
    ∧ accessOk (data 1 2).params 0x100007FF 2 = true
    ∧ accessOk (data 1 2).params 0x100007FF 4 = true
    ∧ accessOk (data 1 2).params 0x0FFFFFFE 2 = false
    ∧ accessOk (data 1 2).params 0x0FFFFFFC 4 = false := by decide

theorem witness_DoubleWordFormsFault :
    (State.reset.withFetchWord 32 0x0000B183).status = .running
    ∧ (State.reset.withFetchWord 32 0x0000B183).fetchRead = .ok 0x0000B183
    ∧ (State.reset.withFetchWord 32 0x0020B023).fetchRead = .ok 0x0020B023
    ∧ State.reset.params.admitUnnamed = true
    ∧ (0x0000B183 : Word) &&& 0x0000707F = 0x00003003 ∧ (0x0020B023 : Word) &&& 0x0000707F = 0x00003023 :=
  ⟨rfl, rfl, rfl, rfl, by decide, by decide⟩

theorem witness_StoreThenLoadReturnsBytes :
    (data 0 0xFFFFFFFB).mem.wf = true
    ∧ accessOk (data 0 0).params ((data 0 0).reg 1 + BitVec.ofInt 32 (0 : BitVec 12).toInt) 1 = true
    ∧ accessOk (data 0 0).params ((data 0 0).reg 1 + BitVec.ofInt 32 (1 : BitVec 12).toInt) 2 = true
    ∧ accessOk (data 0 0).params ((data 0 0).reg 1 + BitVec.ofInt 32 (0x7FF : BitVec 12).toInt) 4 = true := by decide

/-- A store of one byte into the word that is fetched next. -/
theorem witness_NextFetchSeesTheStore :
    let s := { two 0 0x12345678 with mem := Memory.writeLe [] 4 0xAABBCCDD 4 }
    s.mem.wf = true ∧ s.reg 1 + BitVec.ofInt 32 (6 : BitVec 12).toInt = 6
    ∧ (nextOf (exec (.sb 1 2 6) s)).map (fun t => t.mem.readLe t.pc.toNat 4) = some 0xAA78CCDD
    ∧ (nextOf (exec (.sb 1 2 6) s)).map (fun t => accessOk t.params t.pc 4) = some true := by decide

/-- The predicates of the branches, taken and not taken, at the signed edge. -/
theorem witness_BranchesFollowTheirPredicate :
    (two 0x80000000 0x7FFFFFFF).reg 1 ≠ (two 0x80000000 0x7FFFFFFF).reg 2
    ∧ ((two 0x80000000 0x7FFFFFFF).reg 1).toInt < ((two 0x80000000 0x7FFFFFFF).reg 2).toInt
    ∧ (two 5 5).reg 1 = (two 5 5).reg 2 ∧ ¬ ((two 5 5).reg 1).toInt < ((two 5 5).reg 2).toInt := by decide

/-- rd ≠ 0 and rd = 0, x0 holding 9. -/
theorem witness_JalLinksUnlessRdIsZero :
    (1 : Reg) ≠ 0 ∧ regAfter { State.reset with pc := 4 } 0x010000EF 1 = some 8
    ∧ regAfter (State.reset.setReg 0 9) 0x0100006F 0 = some 9 ∧ pcAfter (State.reset.setReg 0 9) 0x0100006F = some 16 := by
  decide

/-- rd = 0, and rd = rs1 ≠ 0 (R98). -/
theorem witness_JalrJumpsThroughOldRegister :
    pcAfter { two 0x101 0 with pc := 0x20 } 0x008080E7 = some 0x108
    ∧ regAfter { two 0x101 0 with pc := 0x20 } 0x008080E7 1 = some 0x24
    ∧ regAfter ((two 0x101 0).setReg 0 9) 0x00808067 0 = some 9 := by decide

/-! ### Witnesses: launch and observation -/

/-- A later pair overwrites the byte it shares with an earlier one (R178). -/
theorem witness_LaunchWritesPairsInOrder :
    (launch resetParams image).map (fun s => s.mem.readLe 0x10000001 4) = some 0x66552211
    ∧ (launch resetParams image).map (fun s => s.mem.peek 4) = some 0 := by decide

theorem witness_LaunchRefusesInvalidPairs :
    resetParams.wf = true ∧ resetParams.allowMisaligned = true
    ∧ rangeValid resetParams 0xFFD 4 = false ∧ launch resetParams [(0, 5), (0xFFD, 1)] = none := by decide

/-- V3 of 95_test_vectors.md: bytes 1, 2, 3. -/
theorem witness_ByteImageLaunchSetsBytes :
    (launchBytes resetParams [(0x10000000, 1), (0x10000001, 2), (0x10000002, 9), (0x10000002, 3)]).map
      (fun s => s.mem.readLe 0x10000000 4) = some 0x00030201 := by decide

def smallSpan : Params := { resetParams with dataSpan := 8, dumpWords := 2 }

theorem witness_SnapshotListsNonzeroWords :
    smallSpan.wf = true
    ∧ (withParams smallSpan { State.reset with mem := Memory.writeLe [] 0x10000004 0xFFFFFFFB 4 }).snapshot
        = [(0x10000004, 0xFFFFFFFB)] := by decide

theorem witness_DumpListsRegistersThenWords :
    (withParams smallSpan (data 7 0xFFFFFFFB)).dump.registers[2]? = some (-5)
    ∧ (withParams smallSpan (data 7 0)).dump.dataWords = [some 7, some 0]
    ∧ (withParams smallSpan (two 0xFFFFFFFB 0)).registerLine 1 = "R1 = -5" := ⟨by decide, by decide, rfl⟩

end Sys2Proof.Tests
end

/-! PROOFS. The statements about the state (10_state.md): what reset leaves (R34), and that each register index
names a register of its own (R19). -/
section
namespace Sys2Proof.Machine

/-! ### Reset (R34) -/

/-- With no image loaded, every byte of memory is blank. -/
theorem State.resetWith_peek (p : Params) (a : Nat) : (State.resetWith p).mem.peek a = 0 := by
  rw [State.resetWith_mem, Memory.peek_nil, Memory.blank]

theorem resetParams_wf : resetParams.wf = true := by decide

/-- Settles O1: each row of R34's table is the law of `State.resetWith` for that field; `State.reset` is the
instance at `resetParams`, which lie within R6's bounds. -/
theorem resetIsAllZero : Obligations.ResetIsAllZero := by
  unfold Obligations.ResetIsAllZero
  constructor
  · rintro p s rfl
    exact ⟨State.resetWith_pc p, State.resetWith_ir p, State.resetWith_reg p, State.resetWith_operand1 p,
      State.resetWith_operand2 p, State.resetWith_aluResult p, State.resetWith_dest p, State.resetWith_skip p,
      State.resetWith_cycles p, State.resetWith_status p, State.resetWith_peek p, State.resetWith_params p⟩
  · exact ⟨resetParams, resetParams_wf, rfl⟩

/-! ### Registers (R19, R20) -/

theorem State.sameRegistersBut_setReg (s : State) (r : Reg) (v : Word) : SameRegistersBut s (s.setReg r v) r :=
  fun _ hne => State.reg_setReg_ne s v hne

/-- A register write changes no field but the register file. -/
theorem State.setReg_eq_with_regs (s : State) (r : Reg) (v : Word) :
    s.setReg r v = { s with regs := (s.setReg r v).regs } := rfl

/-- Settles O3, from the read-after-write laws at the same index and at another one; x0 needs no case of its own,
since it is written like any other register (R20). -/
theorem registersAreDistinct : Obligations.RegistersAreDistinct := by
  unfold Obligations.RegistersAreDistinct
  intro s r v
  exact ⟨State.reg_setReg_self s r v, State.sameRegistersBut_setReg s r v, State.setReg_eq_with_regs s r v⟩

end Sys2Proof.Machine
end

/-! PROOFS. The statements about memory (20_memory.md): the access check (R43, R44, R48), MemRead (R44), MemWrite
(R45) and FetchRead (R46). -/
section
namespace Sys2Proof.Machine

/-! ### The access check (R43, R44, R48) -/

/-- Settles O4: the check is the alignment rule and `valid` for each byte, and `valid` is the two regions in
numbers. It holds for every width, so the three widths need no case of their own. -/
theorem accessCheckIsTwoRegions : Obligations.AccessCheckIsTwoRegions := by
  unfold Obligations.AccessCheckIsTwoRegions
  intro p a n _
  rw [accessOk_iff, rangeValid_iff]
  simp only [valid_iff]

/-! ### Little-endian reads (R44, R47) -/

/-- Bytes put in front of `y` lie above its bits: the step by which `Memory.readLe` is a concatenation. -/
theorem setWidth_append_eq_or_shiftLeft {v w : Nat} (x : BitVec v) (y : BitVec w) :
    ((x ++ y).setWidth 32 : Word) = y.setWidth 32 ||| x.setWidth 32 <<< w := by
  apply BitVec.eq_of_getLsbD_eq
  intro i hi
  rw [BitVec.getLsbD_or, BitVec.getLsbD_shiftLeft, BitVec.getLsbD_setWidth, BitVec.getLsbD_setWidth,
    BitVec.getLsbD_setWidth, BitVec.getLsbD_append]
  by_cases hy : i < w
  · simp [hi, hy]
  · simp [hi, hy, BitVec.getLsbD_of_ge y i (by omega), show i - w < 32 by omega]

theorem Memory.readLe_two (m : Memory) (a : Nat) :
    m.readLe a 2 = (m.peek (a + 1) ++ m.peek a).setWidth 32 := by
  rw [Memory.readLe, Memory.readLe_one, setWidth_append_eq_or_shiftLeft]

theorem Memory.readLe_four (m : Memory) (a : Nat) :
    m.readLe a 4 = (m.peek (a + 3) ++ m.peek (a + 2) ++ m.peek (a + 1) ++ m.peek a).setWidth 32 := by
  simp only [setWidth_append_eq_or_shiftLeft, BitVec.shiftLeft_or_distrib, ← BitVec.shiftLeft_add]
  simp [Memory.readLe, BitVec.or_assoc]

/-- Settles O6: a read that passes the check gives `Memory.readLe`, which is the concatenation of the bytes at each
of the three widths. -/
theorem memReadIsLittleEndian : Obligations.MemReadIsLittleEndian := by
  unfold Obligations.MemReadIsLittleEndian
  intro s a
  refine ⟨fun h => ?_, fun h => ?_, fun h => ?_, fun n h => State.memRead_error h⟩
  · rw [State.memRead_ok h, Memory.readLe_one]
  · rw [State.memRead_ok h, Memory.readLe_two]
  · rw [State.memRead_ok h, Memory.readLe_four]
    exact congrArg Except.ok (BitVec.setWidth_eq _)

/-! ### Writes (R45) -/

/-- Settles O7: the state written has the memory of `Memory.writeLe`, whose laws give the bytes inside the range,
those outside it, and the canonical form. They hold for every width. -/
theorem memWriteSetsExactlyItsBytes : Obligations.MemWriteSetsExactlyItsBytes := by
  unfold Obligations.MemWriteSetsExactlyItsBytes
  intro s a n v hm _
  refine ⟨fun h => ⟨_, State.memWrite_ok h v, fun k hk => ?_, fun b hb => ?_, rfl, ?_⟩,
    fun h => State.memWrite_error h v⟩
  · exact Memory.peek_writeLe_inside hm a.toNat v hk
  · exact Memory.peek_writeLe_outside s.mem v hb
  · exact Memory.writeLe_wf hm a.toNat v n

/-! ### Fetch (R46) -/

/-- Settles O8: fetch and MemRead make one check at pc; where it passes both give the same word, and where it fails
each raises its own fault. -/
theorem fetchReadIsMemReadAtPc : Obligations.FetchReadIsMemReadAtPc := by
  unfold Obligations.FetchReadIsMemReadAtPc
  intro s
  cases h : accessOk s.params s.pc 4 with
  | true =>
    rw [State.fetchRead_ok h, State.memRead_ok h]
    exact ⟨fun _ => Iff.rfl, nofun⟩
  | false =>
    rw [State.fetchRead_error h, State.memRead_error h]
    exact ⟨fun _ => ⟨nofun, nofun⟩, fun _ _ => rfl⟩

end Sys2Proof.Machine
end

/-! PROOFS. The statements about the encoding (30_encoding.md): the decoder against the opcode table (R78, R84), the
immediates (R71 to R75), and the words that no row names or that no width moves (R80, R81, R83). -/
section
namespace Sys2Proof.Machine

/-! ### Decoding and encoding back

Each family puts into the instruction the fields of the word, and the encoder puts the same fields and the key of the
branch taken back together. -/

theorem encode_of_decodeR {w : Word} {i : Instr} (hop : opcodeOf w = opR) (h : decodeR w = .instr i) :
    encode i = w := by
  have hf := encR_fields w
  unfold decodeR at h
  dsimp only at h
  split_ifs at h <;> cases h <;> simp_all only [encode]

theorem encode_of_decodeImm {w : Word} {i : Instr} (hop : opcodeOf w = opImm) (h : decodeImm w = .instr i) :
    encode i = w := by
  have hf := encI_fields w
  unfold decodeImm at h
  dsimp only at h
  split_ifs at h <;> cases h <;> simp_all only [encode]

theorem encode_of_decodeLoad {w : Word} {i : Instr} (hop : opcodeOf w = opLoad) (h : decodeLoad w = .instr i) :
    encode i = w := by
  have hf := encI_fields w
  unfold decodeLoad at h
  dsimp only at h
  split_ifs at h <;> cases h <;> simp_all only [encode]

theorem encode_of_decodeStore {w : Word} {i : Instr} (hop : opcodeOf w = opStore) (h : decodeStore w = .instr i) :
    encode i = w := by
  have hf := encS_fields w
  unfold decodeStore at h
  dsimp only at h
  split_ifs at h <;> cases h <;> simp_all only [encode]

theorem encode_of_decodeBranch {w : Word} {i : Instr} (hop : opcodeOf w = opBranch) (h : decodeBranch w = .instr i) :
    encode i = w := by
  have hf := encB_fields w
  unfold decodeBranch at h
  dsimp only at h
  split_ifs at h <;> cases h <;> simp_all only [encode]

theorem encode_of_decodeJalr {w : Word} {i : Instr} (hop : opcodeOf w = opJalr) (h : decodeJalr w = .instr i) :
    encode i = w := by
  have hf := encI_fields w
  unfold decodeJalr at h
  split_ifs at h
  cases h
  simp_all only [encode]

/-- A word that decodes to an instruction is that instruction's encoding. -/
theorem encode_of_decodeWord {w : Word} {i : Instr} (h : decodeWord w = .instr i) : encode i = w := by
  unfold decodeWord at h
  dsimp only at h
  split_ifs at h with hw hR hI hL hS hB hJr hLui hAu hJal
  · cases h; exact hw.symm
  · exact encode_of_decodeR hR h
  · exact encode_of_decodeImm hI h
  · exact encode_of_decodeLoad hL h
  · exact encode_of_decodeStore hS h
  · exact encode_of_decodeBranch hB h
  · exact encode_of_decodeJalr hJr h
  · cases h; rw [encode, ← hLui]; exact encU_fields w
  · cases h; rw [encode, ← hAu]; exact encU_fields w
  · cases h; rw [encode, ← hJal]; exact encJ_fields w

/-! ### From a decoded word to its row (R78) -/

/-- The laws of `Laws.SelectedByRow`, one per constructor, as one statement. -/
theorem encode_selected_by_row (i : Instr) : Laws.SelectedByRow.Statement i :=
  match i with
  | .add rd rs1 rs2 => Laws.SelectedByRow.add rd rs1 rs2
  | .sub rd rs1 rs2 => Laws.SelectedByRow.sub rd rs1 rs2
  | .sll rd rs1 rs2 => Laws.SelectedByRow.sll rd rs1 rs2
  | .slt rd rs1 rs2 => Laws.SelectedByRow.slt rd rs1 rs2
  | .xor rd rs1 rs2 => Laws.SelectedByRow.xor rd rs1 rs2
  | .srl rd rs1 rs2 => Laws.SelectedByRow.srl rd rs1 rs2
  | .sra rd rs1 rs2 => Laws.SelectedByRow.sra rd rs1 rs2
  | .or rd rs1 rs2 => Laws.SelectedByRow.or rd rs1 rs2
  | .and rd rs1 rs2 => Laws.SelectedByRow.and rd rs1 rs2
  | .mul rd rs1 rs2 => Laws.SelectedByRow.mul rd rs1 rs2
  | .div rd rs1 rs2 => Laws.SelectedByRow.div rd rs1 rs2
  | .rem rd rs1 rs2 => Laws.SelectedByRow.rem rd rs1 rs2
  | .addi rd rs1 imm => Laws.SelectedByRow.addi rd rs1 imm
  | .andi rd rs1 imm => Laws.SelectedByRow.andi rd rs1 imm
  | .ori rd rs1 imm => Laws.SelectedByRow.ori rd rs1 imm
  | .lb rd rs1 imm => Laws.SelectedByRow.lb rd rs1 imm
  | .lh rd rs1 imm => Laws.SelectedByRow.lh rd rs1 imm
  | .lw rd rs1 imm => Laws.SelectedByRow.lw rd rs1 imm
  | .ld rd rs1 imm => Laws.SelectedByRow.ld rd rs1 imm
  | .jalr rd rs1 imm => Laws.SelectedByRow.jalr rd rs1 imm
  | .sb rs1 rs2 imm => Laws.SelectedByRow.sb rs1 rs2 imm
  | .sh rs1 rs2 imm => Laws.SelectedByRow.sh rs1 rs2 imm
  | .sw rs1 rs2 imm => Laws.SelectedByRow.sw rs1 rs2 imm
  | .sd rs1 rs2 imm => Laws.SelectedByRow.sd rs1 rs2 imm
  | .beq rs1 rs2 off => Laws.SelectedByRow.beq rs1 rs2 off
  | .bne rs1 rs2 off => Laws.SelectedByRow.bne rs1 rs2 off
  | .blt rs1 rs2 off => Laws.SelectedByRow.blt rs1 rs2 off
  | .bge rs1 rs2 off => Laws.SelectedByRow.bge rs1 rs2 off
  | .lui rd imm => Laws.SelectedByRow.lui rd imm
  | .auipc rd imm => Laws.SelectedByRow.auipc rd imm
  | .jal rd off => Laws.SelectedByRow.jal rd off
  | .exitTrap => Laws.SelectedByRow.exitTrap

theorem exists_row_of_decodeWord {w : Word} {i : Instr} (hw : w ≠ Config.trapWord) (h : decodeWord w = .instr i) :
    ∃ r ∈ opcodeTable, r.mnemonic = i.mnemonic ∧ r.selects w = true := by
  have henc := encode_of_decodeWord h
  obtain rfl | hr := encode_selected_by_row i
  · exact absurd henc.symm hw
  · rwa [henc] at hr

/-! ### From a row to the decoded word (R78)

The decoder looks at a few fields of the word, and a row's mask covers the fields that the decoder looks at under the
row's opcode. So a word that a row selects decodes to the same mnemonic as the row's own match value, and the table's
31 match values are evaluated. -/

/-- The row name of what a word decodes to; none for a no-op and for an ILLEGAL word. -/
def decodedName : Decoded → Option String
  | .instr i => some i.mnemonic
  | .nopUnknown => none
  | .illegal => none

theorem decodedName_eq_some_iff (d : Decoded) (m : String) :
    decodedName d = some m ↔ ∃ i, d = .instr i ∧ i.mnemonic = m := by
  cases d with
  | instr i => simp [decodedName]
  | nopUnknown => simp [decodedName]
  | illegal => simp [decodedName]

section
variable {w v : Word}

theorem decodedName_decodeR_congr (h3 : funct3Of w = funct3Of v) (h7 : funct7Of w = funct7Of v) :
    decodedName (decodeR w) = decodedName (decodeR v) := by
  simp only [decodeR, h3, h7]
  split_ifs <;> rfl

theorem decodedName_decodeImm_congr (h3 : funct3Of w = funct3Of v) :
    decodedName (decodeImm w) = decodedName (decodeImm v) := by
  simp only [decodeImm, h3]
  split_ifs <;> rfl

theorem decodedName_decodeLoad_congr (h3 : funct3Of w = funct3Of v) :
    decodedName (decodeLoad w) = decodedName (decodeLoad v) := by
  simp only [decodeLoad, h3]
  split_ifs <;> rfl

theorem decodedName_decodeStore_congr (h3 : funct3Of w = funct3Of v) :
    decodedName (decodeStore w) = decodedName (decodeStore v) := by
  simp only [decodeStore, h3]
  split_ifs <;> rfl

theorem decodedName_decodeBranch_congr (h3 : funct3Of w = funct3Of v) :
    decodedName (decodeBranch w) = decodedName (decodeBranch v) := by
  simp only [decodeBranch, h3]
  split_ifs <;> rfl

theorem decodedName_decodeJalr_congr (h3 : funct3Of w = funct3Of v) :
    decodedName (decodeJalr w) = decodedName (decodeJalr v) := by
  simp only [decodeJalr, h3]
  split_ifs <;> rfl

/-- The fields the decoder's choice of a row depends on: opcode, funct3 but for the U and J formats, and funct7 for
the R format. -/
theorem decodedName_decodeWord_congr (hw : w ≠ Config.trapWord) (hv : v ≠ Config.trapWord)
    (hop : opcodeOf w = opcodeOf v) (h3 : opcodeOf v ∉ [opLui, opAuipc, opJal] → funct3Of w = funct3Of v)
    (h7 : opcodeOf v = opR → funct7Of w = funct7Of v) :
    decodedName (decodeWord w) = decodedName (decodeWord v) := by
  simp only [decodeWord, if_neg hw, if_neg hv, hop]
  split_ifs with hR hI hL hS hB hJr
  · exact decodedName_decodeR_congr (h3 (by rw [hR]; decide)) (h7 hR)
  · exact decodedName_decodeImm_congr (h3 (by rw [hI]; decide))
  · exact decodedName_decodeLoad_congr (h3 (by rw [hL]; decide))
  · exact decodedName_decodeStore_congr (h3 (by rw [hS]; decide))
  · exact decodedName_decodeBranch_congr (h3 (by rw [hB]; decide))
  · exact decodedName_decodeJalr_congr (h3 (by rw [hJr]; decide))
  all_goals rfl

/-- A field that the mask covers whole is the match value's. -/
theorem extractLsb'_eq_of_and_eq {m : Word} {start len : Nat} (h : w &&& m = v)
    (hm : m.extractLsb' start len = BitVec.allOnes len) : w.extractLsb' start len = v.extractLsb' start len := by
  rw [← h, BitVec.extractLsb'_and, hm, BitVec.and_allOnes]

end

/-- Every mask covers the opcode, but for the U and J rows it covers funct3, and for the R rows it covers funct7. -/
theorem opcodeTable_masks : ∀ r ∈ opcodeTable,
    opcodeOf r.mask = BitVec.allOnes 7
      ∧ (opcodeOf r.pattern ∉ [opLui, opAuipc, opJal] → funct3Of r.mask = BitVec.allOnes 3)
      ∧ (opcodeOf r.pattern = opR → funct7Of r.mask = BitVec.allOnes 7) := by decide

/-- Every match value has a known opcode and decodes to the row's own name. -/
theorem opcodeTable_patterns : ∀ r ∈ opcodeTable,
    opcodeOf r.pattern ∈ knownOpcodes ∧ decodedName (decodeWord r.pattern) = some r.mnemonic := by decide

theorem ne_trapWord_of_known {w : Word} (h : opcodeOf w ∈ knownOpcodes) : w ≠ Config.trapWord :=
  ne_trapWord_of_opcode fun h' => absurd (h' ▸ h) (by decide)

/-- A word that a row selects has a known opcode, so it is not the trap word, and decodes to an instruction of the
row's name. -/
theorem decodeWord_of_selects {r : Row} {w : Word} (hr : r ∈ opcodeTable) (h : r.selects w = true) :
    w ≠ Config.trapWord ∧ ∃ i, decodeWord w = .instr i ∧ i.mnemonic = r.mnemonic := by
  obtain ⟨mop, m3, m7⟩ := opcodeTable_masks r hr
  obtain ⟨hknown, hname⟩ := opcodeTable_patterns r hr
  have hand : w &&& r.mask = r.pattern := eq_of_beq h
  have hop : opcodeOf w = opcodeOf r.pattern := extractLsb'_eq_of_and_eq hand mop
  have hw : w ≠ Config.trapWord := ne_trapWord_of_known (hop ▸ hknown)
  refine ⟨hw, (decodedName_eq_some_iff _ _).mp ?_⟩
  rw [← hname]
  exact decodedName_decodeWord_congr hw (ne_trapWord_of_known hknown) hop
    (fun hU => extractLsb'_eq_of_and_eq hand (m3 hU)) (fun hR => extractLsb'_eq_of_and_eq hand (m7 hR))

/-! ### Unknown opcodes and ILLEGAL words (R80, R81, R84) -/

section
variable (w : Word)

theorem decodeR_ne_nopUnknown : decodeR w ≠ .nopUnknown := by
  simp only [decodeR]
  split_ifs <;> nofun

theorem decodeImm_ne_nopUnknown : decodeImm w ≠ .nopUnknown := by
  simp only [decodeImm]
  split_ifs <;> nofun

theorem decodeLoad_ne_nopUnknown : decodeLoad w ≠ .nopUnknown := by
  simp only [decodeLoad]
  split_ifs <;> nofun

theorem decodeStore_ne_nopUnknown : decodeStore w ≠ .nopUnknown := by
  simp only [decodeStore]
  split_ifs <;> nofun

theorem decodeBranch_ne_nopUnknown : decodeBranch w ≠ .nopUnknown := by
  simp only [decodeBranch]
  split_ifs <;> nofun

theorem decodeJalr_ne_nopUnknown : decodeJalr w ≠ .nopUnknown := by
  unfold decodeJalr
  split_ifs <;> nofun

end

theorem decodeWord_eq_nopUnknown_iff {w : Word} (hw : w ≠ Config.trapWord) :
    decodeWord w = .nopUnknown ↔ opcodeOf w ∉ knownOpcodes := by
  simp only [decodeWord, if_neg hw]
  split_ifs with hR hI hL hS hB hJr hLui hAu hJal
  · exact iff_of_false (decodeR_ne_nopUnknown w) (by rw [hR]; decide)
  · exact iff_of_false (decodeImm_ne_nopUnknown w) (by rw [hI]; decide)
  · exact iff_of_false (decodeLoad_ne_nopUnknown w) (by rw [hL]; decide)
  · exact iff_of_false (decodeStore_ne_nopUnknown w) (by rw [hS]; decide)
  · exact iff_of_false (decodeBranch_ne_nopUnknown w) (by rw [hB]; decide)
  · exact iff_of_false (decodeJalr_ne_nopUnknown w) (by rw [hJr]; decide)
  · exact iff_of_false nofun (by rw [hLui]; decide)
  · exact iff_of_false nofun (by rw [hAu]; decide)
  · exact iff_of_false nofun (by rw [hJal]; decide)
  · exact iff_of_true rfl (by simp [knownOpcodes, hR, hI, hL, hS, hB, hJr, hLui, hAu, hJal])

theorem decodeWord_eq_illegal_iff {w : Word} (hw : w ≠ Config.trapWord) :
    decodeWord w = .illegal ↔ opcodeOf w ∈ knownOpcodes ∧ ∀ r ∈ opcodeTable, r.selects w = false := by
  constructor
  · intro hill
    constructor
    · by_contra hunknown
      have hnop := (decodeWord_eq_nopUnknown_iff hw).mpr hunknown
      rw [hill] at hnop
      cases hnop
    · intro r hr
      by_contra hsel
      obtain ⟨_, i, hi, _⟩ := decodeWord_of_selects hr (Bool.eq_true_of_not_eq_false hsel)
      rw [hill] at hi
      cases hi
  · rintro ⟨hknown, hnone⟩
    cases hd : decodeWord w with
    | illegal => rfl
    | nopUnknown => exact absurd hknown ((decodeWord_eq_nopUnknown_iff hw).mp hd)
    | instr i =>
      obtain ⟨r, hr, _, hsel⟩ := exists_row_of_decodeWord hw hd
      rw [hnone r hr] at hsel
      cases hsel

/-- Settles O12: a decoded instruction's word is its encoding, which a row of its name selects; a word that a row
selects decodes as the row's match value does; and the two other kinds follow from these and the opcode map. -/
theorem decoderFollowsOpcodeTable : Obligations.DecoderFollowsOpcodeTable := by
  unfold Obligations.DecoderFollowsOpcodeTable
  refine ⟨by decide, fun w hw => ⟨fun m => ⟨?_, ?_⟩, decodeWord_eq_illegal_iff hw,
    decodeWord_eq_nopUnknown_iff hw⟩⟩
  · rintro ⟨i, hi, rfl⟩
    exact exists_row_of_decodeWord hw hi
  · rintro ⟨r, hr, rfl, hsel⟩
    exact (decodeWord_of_selects hr hsel).2

/-! ### The kinds under the parameters (R81) -/

section
variable {p : Params} {w : Word}

theorem classify_of_nopUnknown (h : decodeWord w = .nopUnknown) : classify p w = .nopUnknown := by
  rw [classify, h]

theorem classify_of_illegal (h : decodeWord w = .illegal) : classify p w = .illegal := by
  rw [classify, h]

theorem classify_of_admitted {i : Instr} (hp : p.admitUnnamed = true) (h : decodeWord w = .instr i) :
    classify p w = .instr i := by
  simp [classify, h, hp]

theorem classify_of_unnamed {i : Instr} (hp : p.admitUnnamed = false) (h : decodeWord w = .instr i)
    (hi : i.inSource = false) : classify p w = .illegal := by
  simp [classify, h, hp, hi]

end

/-- The names of the 18 rows that R81 lists. -/
def unnamedRows : List String :=
  ["sub", "sll", "slt", "xor", "srl", "sra", "or", "and", "andi", "ori", "lb", "lh", "ld", "sb",
   "sh", "sd", "blt", "bge"]

/-- `Instr.inSource` leaves out exactly the rows that R81 lists. -/
theorem inSource_eq_false_iff (i : Instr) : i.inSource = false ↔ i.mnemonic ∈ unnamedRows := by
  cases i <;> simp [Instr.inSource, Instr.mnemonic, unnamedRows]

/-! ### Steps of words that are no instruction -/

section
variable {s : State} {w : Word}

theorem step_nopUnknown (hs : s.status = .running) (hf : s.fetchRead = .ok w)
    (hc : classify s.params w = .nopUnknown) : step s = .next (s.latch w).nopStep := by
  rw [step_of_fetch hs hf, stepWord, hc]

theorem step_illegal (hs : s.status = .running) (hf : s.fetchRead = .ok w)
    (hc : classify s.params w = .illegal) : step s = .fault (.illegalEncoding w) := by
  rw [step_of_fetch hs hf, stepWord, hc, raise]

theorem step_instr {i : Instr} (hs : s.status = .running) (hf : s.fetchRead = .ok w)
    (hc : classify s.params w = .instr i) : step s = exec i (s.latch w) := by
  rw [step_of_fetch hs hf, stepWord, hc]

/-- Where the core rests after a fault of the fetched word (R103). -/
theorem rest_of_fault {f : Fault} (hf : s.fetchRead = .ok w) (h : step s = .fault f) :
    s.rest = (s.latch w).faulted f := by
  rw [State.rest, h, State.latchFetched, hf]

end

/-- Settles O17: the word decodes to the no-op under every parameter, and each conjunct is a law of
`State.nopStep`. -/
theorem unknownOpcodeRunsAsNoOp : Obligations.UnknownOpcodeRunsAsNoOp := by
  unfold Obligations.UnknownOpcodeRunsAsNoOp
  intro s w hs hf hw hop
  have hc : classify s.params w = .nopUnknown :=
    classify_of_nopUnknown ((decodeWord_eq_nopUnknown_iff hw).mpr hop)
  refine ⟨_, step_nopUnknown hs hf hc, ?_⟩
  simp [SameRegisters, SameMemory, SameLatches, hs]

/-- Settles O18: in both parts the word is ILLEGAL under the parameters; the step faults, and the state it rests in
is the state before with IR and the status changed. -/
theorem illegalWordsFault : Obligations.IllegalWordsFault := by
  unfold Obligations.IllegalWordsFault
  intro s w hs hf hword
  have hc : classify s.params w = .illegal := by
    obtain ⟨hknown, hnone⟩ | ⟨hp, r, hr, hsel, hname⟩ := hword
    · exact classify_of_illegal ((decodeWord_eq_illegal_iff (ne_trapWord_of_known hknown)).mpr ⟨hknown, hnone⟩)
    · obtain ⟨_, i, hi, hir⟩ := decodeWord_of_selects hr hsel
      exact classify_of_unnamed hp hi ((inSource_eq_false_iff i).mpr (hir ▸ hname))
  have hstep := step_illegal hs hf hc
  rw [rest_of_fault hf hstep]
  exact ⟨hstep, rfl, fun _ => rfl, fun _ => rfl, rfl, rfl, rfl⟩

/-! ### ld and sd (R83) -/

theorem exec_ld (rd rs1 : Reg) (imm : BitVec 12) (s : State) :
    exec (.ld rd rs1 imm) s = .fault (.unsupportedWidth s.ir) := rfl

theorem exec_sd (rs1 rs2 : Reg) (imm : BitVec 12) (s : State) :
    exec (.sd rs1 rs2 imm) s = .fault (.unsupportedWidth s.ir) := rfl

theorem decodeWord_of_ld_row {w : Word} (h : w &&& 0x0000707F = 0x00003003) :
    decodeWord w = .instr (.ld (rdOf w) (rs1Of w) (immIField w)) := by
  have hop : opcodeOf w = 0b0000011 := extractLsb'_eq_of_and_eq h (by decide)
  have h3 : funct3Of w = 0b011 := extractLsb'_eq_of_and_eq h (by decide)
  have hw : w ≠ Config.trapWord := ne_trapWord_of_known (by rw [hop]; decide)
  simp [decodeWord, hw, hop, opR, opImm, opLoad, decodeLoad, h3]

theorem decodeWord_of_sd_row {w : Word} (h : w &&& 0x0000707F = 0x00003023) :
    decodeWord w = .instr (.sd (rs1Of w) (rs2Of w) (immSField w)) := by
  have hop : opcodeOf w = 0b0100011 := extractLsb'_eq_of_and_eq h (by decide)
  have h3 : funct3Of w = 0b011 := extractLsb'_eq_of_and_eq h (by decide)
  have hw : w ≠ Config.trapWord := ne_trapWord_of_known (by rw [hop]; decide)
  simp [decodeWord, hw, hop, opR, opImm, opLoad, opStore, decodeStore, h3]

/-- Settles O43: the meanings of ld and sd are that fault; a word of either row decodes to its instruction, which
runs with the word in IR. -/
theorem doubleWordFormsFault : Obligations.DoubleWordFormsFault := by
  unfold Obligations.DoubleWordFormsFault
  refine ⟨fun s r q imm => ⟨exec_ld r q imm s, exec_sd r q imm s⟩, fun s w hs hf hp hrow => ?_, by decide,
    by decide⟩
  obtain hld | hsd := hrow
  · rw [step_instr hs hf (classify_of_admitted hp (decodeWord_of_ld_row hld)), exec_ld, State.latch_ir]
  · rw [step_instr hs hf (classify_of_admitted hp (decodeWord_of_sd_row hsd)), exec_sd, State.latch_ir]

/-! ### Immediates (R71 to R75) -/

/-- The signed value of the field that reaches up to bit 31: bit 31 counts once among the bits and is taken off twice,
as the sign. -/
theorem toInt_extractLsb'_top (w : Word) {start len : Nat} (hlen : 0 < len) (h : start + len = 32) :
    (w.extractLsb' start len).toInt
      = ((w.toNat / 2 ^ start : Nat) : Int) - 2 ^ len * ((w.toNat / 2 ^ 31 : Nat) : Int) := by
  obtain ⟨k, rfl⟩ : ∃ k, len = k + 1 := ⟨len - 1, by omega⟩
  have hlt : w.toNat / 2 ^ start < 2 ^ (k + 1) := by
    rw [Nat.div_lt_iff_lt_mul (by positivity), ← pow_add, show k + 1 + start = 32 by omega]
    exact w.isLt
  have hsign : w.toNat / 2 ^ 31 = w.toNat / 2 ^ start / 2 ^ k := by
    rw [Nat.div_div_eq_div_mul, ← pow_add, show start + k = 31 by omega]
  rw [BitVec.toInt_eq_toNat_cond, BitVec.extractLsb'_toNat, Nat.shiftRight_eq_div_pow, Nat.mod_eq_of_lt hlt, hsign]
  generalize w.toNat / 2 ^ start = q at hlt
  rw [pow_succ] at hlt
  split
  next hneg =>
    rw [pow_succ] at hneg
    rw [Nat.div_eq_of_lt (by omega)]
    simp
  next hpos =>
    rw [pow_succ] at hpos
    rw [Nat.div_eq_of_lt_le (k := 1) (by omega) (by omega)]
    simp

theorem toNat_extractLsb'_eq_div_mod (w : Word) (start len : Nat) :
    (w.extractLsb' start len).toNat = w.toNat / 2 ^ start % 2 ^ len := by
  rw [BitVec.extractLsb'_toNat, Nat.shiftRight_eq_div_pow]

theorem toInt_append_of_pos {m n : Nat} (hm : 0 < m) (x : BitVec m) (y : BitVec n) :
    (x ++ y).toInt = 2 ^ n * x.toInt + (y.toNat : Int) := by
  rw [BitVec.toInt_append, if_neg (by simpa using hm.ne')]

theorem toInt_immI (w : Word) : (immI (immIField w)).toInt
    = ((w.toNat / 2 ^ 20 % 2 ^ 11 : Nat) : Int) - 2 ^ 11 * ((w.toNat / 2 ^ 31 : Nat) : Int) := by
  rw [immI, BitVec.toInt_signExtend_of_le (by decide), immIField, toInt_extractLsb'_top w (by decide) (by decide)]
  omega

theorem toInt_immS (w : Word) : (immS (immSField w)).toInt
    = ((2 ^ 5 * (w.toNat / 2 ^ 25 % 2 ^ 6) + w.toNat / 2 ^ 7 % 2 ^ 5 : Nat) : Int)
      - 2 ^ 11 * ((w.toNat / 2 ^ 31 : Nat) : Int) := by
  rw [immS, BitVec.toInt_signExtend_of_le (by decide), immSField, toInt_append_of_pos (by decide),
    toInt_extractLsb'_top w (by decide) (by decide), toNat_extractLsb'_eq_div_mod]
  omega

theorem toInt_immB (w : Word) : (immB (immBField w)).toInt
    = ((2 ^ 11 * (w.toNat / 2 ^ 7 % 2) + 2 ^ 5 * (w.toNat / 2 ^ 25 % 2 ^ 6) + 2 * (w.toNat / 2 ^ 8 % 2 ^ 4) : Nat)
        : Int) - 2 ^ 12 * ((w.toNat / 2 ^ 31 : Nat) : Int) := by
  rw [immB, BitVec.toInt_signExtend_of_le (by decide), immBField]
  iterate 4 rw [toInt_append_of_pos (by decide)]
  rw [toInt_extractLsb'_top w (by decide) (by decide)]
  simp only [toNat_extractLsb'_eq_div_mod, BitVec.toNat_ofNat]
  omega

theorem toNat_immU (w : Word) : (immU (immUField w)).toNat = w.toNat / 2 ^ 12 * 2 ^ 12 := by
  rw [immU, immUField, BitVec.toNat_append, toNat_extractLsb'_eq_div_mod, BitVec.toNat_ofNat, Nat.zero_mod,
    Nat.or_zero, Nat.shiftLeft_eq, Nat.mod_eq_of_lt (by omega)]

theorem toInt_immJ (w : Word) : (immJ (immJField w)).toInt
    = ((2 ^ 12 * (w.toNat / 2 ^ 12 % 2 ^ 8) + 2 ^ 11 * (w.toNat / 2 ^ 20 % 2) + 2 * (w.toNat / 2 ^ 21 % 2 ^ 10) : Nat)
        : Int) - 2 ^ 20 * ((w.toNat / 2 ^ 31 : Nat) : Int) := by
  rw [immJ, BitVec.toInt_signExtend_of_le (by decide), immJField]
  iterate 4 rw [toInt_append_of_pos (by decide)]
  rw [toInt_extractLsb'_top w (by decide) (by decide)]
  simp only [toNat_extractLsb'_eq_div_mod, BitVec.toNat_ofNat]
  omega

/-- Settles O15: the five values, and the ranges as bounds of the sums, bit 31 being 0 or 1. -/
theorem immediatesAreSignExtended : Obligations.ImmediatesAreSignExtended := by
  unfold Obligations.ImmediatesAreSignExtended
  intro w
  have hsign : w.toNat / 2 ^ 31 ≤ 1 := by omega
  rw [toInt_immI, toInt_immS, toInt_immB, toNat_immU, toInt_immJ]
  generalize w.toNat / 2 ^ 31 = sign at hsign
  refine ⟨⟨rfl, ?_, ?_⟩, ⟨rfl, ?_, ?_⟩, ⟨rfl, ?_, ?_⟩, rfl, rfl, ?_, ?_⟩ <;> omega

end Sys2Proof.Machine
end

/-! PROOFS. The statements about the step (40_cycle.md): a fault commits nothing (R103). -/
section
namespace Sys2Proof.Machine

/-- A fault leaves the state before the step with some IR, whether or not the fetch succeeded (R102). -/
theorem exists_latchFetched_eq_latch (s : State) : ∃ w, s.latchFetched = s.latch w := by
  cases hf : s.fetchRead with
  | ok w => exact ⟨w, by rw [State.latchFetched, hf]⟩
  | error e => exact ⟨s.ir, by rw [State.latchFetched, hf, State.latch]⟩

/-- Where the core rests after any fault, that of the fetch included: only IR and the status may differ (R103). -/
theorem exists_rest_eq_faulted_of_fault {s : State} {f : Fault} (h : step s = .fault f) :
    ∃ w, s.rest = (s.latch w).faulted f := by
  obtain ⟨w, hw⟩ := exists_latchFetched_eq_latch s
  exact ⟨w, by rw [State.rest, h, hw]⟩

/-- Settles O25: the core rests in the state before the step with IR and the status changed, and each conjunct is a
law of `State.latch` and `State.faulted`. -/
theorem faultCommitsNothing : Obligations.FaultCommitsNothing := by
  unfold Obligations.FaultCommitsNothing
  intro s f h
  obtain ⟨w, hrest⟩ := exists_rest_eq_faulted_of_fault h
  rw [hrest]
  simp [SameRegisters, SameMemory]

end Sys2Proof.Machine
end

/-! PROOFS. The statements about the R family (41_r_alu.md): R116's template with each ALU operation read as
arithmetic. -/
section
namespace Sys2Proof.Machine

/-! ### The ALU operations as arithmetic -/

theorem aluAdd_eq_ofNat (a b : Word) : aluAdd a b = BitVec.ofNat 32 (a.toNat + b.toNat) := rfl

theorem aluSub_eq_ofInt (a b : Word) : aluSub a b = BitVec.ofInt 32 (a.toNat - b.toNat) := by
  apply BitVec.eq_of_toNat_eq
  rw [aluSub, BitVec.toNat_sub, BitVec.toNat_ofInt]
  omega

theorem aluMul_eq_ofNat (a b : Word) : aluMul a b = BitVec.ofNat 32 (a.toNat * b.toNat) := rfl

theorem getLsbD_aluXor (a b : Word) (i : Nat) : (aluXor a b).getLsbD i = (a.getLsbD i ^^ b.getLsbD i) :=
  BitVec.getLsbD_xor

theorem getLsbD_aluOr (a b : Word) (i : Nat) : (aluOr a b).getLsbD i = (a.getLsbD i || b.getLsbD i) :=
  BitVec.getLsbD_or

theorem getLsbD_aluAnd (a b : Word) (i : Nat) : (aluAnd a b).getLsbD i = (a.getLsbD i && b.getLsbD i) :=
  BitVec.getLsbD_and

theorem shamt_eq_mod (b : Word) : shamt b = b.toNat % 32 := by
  rw [shamt, toNat_extractLsb'_eq_div_mod, Config.shiftMask, pow_zero, Nat.div_one]
  rfl

theorem aluSll_eq_ofNat (a b : Word) : aluSll a b = BitVec.ofNat 32 (a.toNat * 2 ^ (b.toNat % 32)) := by
  rw [aluSll, shamt_eq_mod, ← Nat.shiftLeft_eq]
  rfl

theorem aluSrl_eq_ofNat (a b : Word) : aluSrl a b = BitVec.ofNat 32 (a.toNat / 2 ^ (b.toNat % 32)) := by
  rw [aluSrl, shamt_eq_mod, ← Nat.shiftRight_eq_div_pow, ← BitVec.toNat_ushiftRight, BitVec.ofNat_toNat,
    BitVec.setWidth_eq]

/-- An arithmetic shift is a division by a power of two that rounds toward minus infinity. -/
theorem aluSra_eq_ofInt (a b : Word) : aluSra a b = BitVec.ofInt 32 (a.toInt.fdiv (2 ^ (b.toNat % 32))) := by
  rw [aluSra, shamt_eq_mod, BitVec.sshiftRight_eq, Int.shiftRight_eq_div_pow,
    Int.fdiv_eq_ediv_of_nonneg _ (by positivity), Nat.cast_pow, Nat.cast_ofNat]

theorem aluSlt_eq_ite (a b : Word) : aluSlt a b = if a.toInt < b.toInt then 1 else 0 := by
  simp [aluSlt, setIf, condLt]

/-! ### Division (R127, R128) -/

@[simp] theorem aluDiv_zero (p : DivOverflowPolicy) (a : Word) : aluDiv p a 0 = some 0 := rfl

@[simp] theorem aluRem_zero (p : DivOverflowPolicy) (a : Word) : aluRem p a 0 = some 0 := rfl

theorem aluDiv_riscv_overflow : aluDiv .riscv 0x80000000 0xFFFFFFFF = some 0x80000000 := rfl

theorem aluRem_riscv_overflow : aluRem .riscv 0x80000000 0xFFFFFFFF = some 0 := rfl

/-- But for -2^31 by -1, the quotient is in the range of a word, so it is not reduced modulo 2^32. -/
theorem aluDiv_eq_some {a b : Word} (p : DivOverflowPolicy) (hb : b ≠ 0)
    (ho : ¬ (a = 0x80000000 ∧ b = 0xFFFFFFFF)) : ∃ v, aluDiv p a b = some v ∧ v.toInt = a.toInt.tdiv b.toInt := by
  have hv : aluDiv p a b = some (BitVec.ofInt 32 (a.toInt.tdiv b.toInt)) := by
    unfold aluDiv
    rw [if_neg hb, if_neg (mt (divOverflows_iff a b).1 ho)]
  refine ⟨_, hv, ?_⟩
  rw [BitVec.toInt_ofInt, ← BitVec.toInt_sdiv]
  exact BitVec.toInt_sdiv_of_ne_or_ne a b (not_and_or.1 ho)

/-- The remainder is in the range of a word for any operands;
the overflow is left out as `aluRem` does not compute it. -/
theorem aluRem_eq_some {a b : Word} (p : DivOverflowPolicy) (hb : b ≠ 0)
    (ho : ¬ (a = 0x80000000 ∧ b = 0xFFFFFFFF)) : ∃ v, aluRem p a b = some v ∧ v.toInt = a.toInt.tmod b.toInt := by
  have hv : aluRem p a b = some (BitVec.ofInt 32 (a.toInt - a.toInt.tdiv b.toInt * b.toInt)) := by
    unfold aluRem
    rw [if_neg hb, if_neg (mt (divOverflows_iff a b).1 ho)]
  refine ⟨_, hv, ?_⟩
  rw [mul_comm, ← Int.tmod_def, ← BitVec.toInt_srem, BitVec.ofInt_toInt]

/-! ### R116's template, for a value that a property gives -/

/-- An operation that combines the bits of its operands place by place. -/
theorem execR_bitwise {f : Word → Word → Word} {g : Bool → Bool → Bool}
    (hf : ∀ a b i, (f a b).getLsbD i = g (a.getLsbD i) (b.getLsbD i)) (rd rs1 rs2 : Reg) (s : State) :
    ∃ t v, execR f rd rs1 rs2 s = .next t ∧ Staged s t rs1 rs2 rd ∧ WritesOnly s t rd v
      ∧ ∀ i, v.getLsbD i = g ((s.reg rs1).getLsbD i) ((s.reg rs2).getLsbD i) := by
  obtain ⟨t, hnext, hstaged, hwrites⟩ := execR_spec f rd rs1 rs2 s
  exact ⟨t, _, hnext, hstaged, hwrites, hf _ _⟩

/-- A division that has a result. -/
theorem execRDiv_of_exists {f : DivOverflowPolicy → Word → Word → Option Word} {P : Word → Prop} {rd rs1 rs2 : Reg}
    {s : State} (h : ∃ v, f s.params.divOverflow (s.reg rs1) (s.reg rs2) = some v ∧ P v) :
    ∃ t v, execRDiv f rd rs1 rs2 s = .next t ∧ Staged s t rs1 rs2 rd ∧ WritesOnly s t rd v ∧ P v := by
  obtain ⟨v, hv, hP⟩ := h
  obtain ⟨t, hnext, hstaged, hwrites⟩ := execRDiv_some (rd := rd) hv
  exact ⟨t, v, hnext, hstaged, hwrites, hP⟩

/-! ### The statements -/

/-- Settles O34: R116's template with the three operations, each a number reduced modulo 2^32. -/
theorem addSubMulWrap : Obligations.AddSubMulWrap := by
  unfold Obligations.AddSubMulWrap
  refine ⟨fun s rd rs1 rs2 => ⟨?_, ?_, ?_⟩, by decide, by decide, by decide⟩
  · exact aluAdd_eq_ofNat _ _ ▸ execR_spec aluAdd rd rs1 rs2 s
  · exact aluSub_eq_ofInt _ _ ▸ execR_spec aluSub rd rs1 rs2 s
  · exact aluMul_eq_ofNat _ _ ▸ execR_spec aluMul rd rs1 rs2 s

/-- Settles O35: R116's template with the three operations, each given by its bits. -/
theorem logicIsBitwise : Obligations.LogicIsBitwise := by
  unfold Obligations.LogicIsBitwise
  refine ⟨fun s rd rs1 rs2 => ⟨?_, ?_, ?_⟩, by decide, by decide, by decide⟩
  · exact execR_bitwise getLsbD_aluXor rd rs1 rs2 s
  · exact execR_bitwise getLsbD_aluOr rd rs1 rs2 s
  · exact execR_bitwise getLsbD_aluAnd rd rs1 rs2 s

/-- Settles O36: R116's template with the three shifts, each a product or a quotient by a power of two. -/
theorem shiftsUseFiveBits : Obligations.ShiftsUseFiveBits := by
  unfold Obligations.ShiftsUseFiveBits
  refine ⟨fun s rd rs1 rs2 => ⟨?_, ?_, ?_⟩, by decide, by decide, by decide⟩
  · exact aluSll_eq_ofNat _ _ ▸ execR_spec aluSll rd rs1 rs2 s
  · exact aluSrl_eq_ofNat _ _ ▸ execR_spec aluSrl rd rs1 rs2 s
  · exact aluSra_eq_ofInt _ _ ▸ execR_spec aluSra rd rs1 rs2 s

/-- Settles O37: R116's template with the signed compare. -/
theorem setLessThanIsSigned : Obligations.SetLessThanIsSigned := by
  unfold Obligations.SetLessThanIsSigned
  refine ⟨fun s rd rs1 rs2 => ?_, by decide⟩
  exact aluSlt_eq_ite _ _ ▸ execR_spec aluSlt rd rs1 rs2 s

/-- Settles O38: one clause for each branch of `aluDiv`. -/
theorem divideRoundsTowardZero : Obligations.DivideRoundsTowardZero := by
  unfold Obligations.DivideRoundsTowardZero
  refine ⟨fun s rd rs1 rs2 => ⟨fun hb => ?_, fun hb ho => ?_, fun ha hb hp => ?_, fun ha hb hp => ?_⟩, by decide⟩
  · exact execRDiv_some (by rw [hb, aluDiv_zero])
  · exact execRDiv_of_exists (aluDiv_eq_some s.params.divOverflow hb ho)
  · exact execRDiv_none ((aluDiv_eq_none_iff _ _ _).2 ⟨hp, ha, hb⟩)
  · exact execRDiv_some (by rw [ha, hb, hp, aluDiv_riscv_overflow])

/-- Settles O39: one clause for each branch of `aluRem`. -/
theorem remainderTakesDividendSign : Obligations.RemainderTakesDividendSign := by
  unfold Obligations.RemainderTakesDividendSign
  refine ⟨fun s rd rs1 rs2 => ⟨fun hb => ?_, fun hb ho => ?_, fun ha hb hp => ?_, fun ha hb hp => ?_⟩, by decide⟩
  · exact execRDiv_some (by rw [hb, aluRem_zero])
  · exact execRDiv_of_exists (aluRem_eq_some s.params.divOverflow hb ho)
  · exact execRDiv_none ((aluRem_eq_none_iff _ _ _).2 ⟨hp, ha, hb⟩)
  · exact execRDiv_some (by rw [ha, hb, hp, aluRem_riscv_overflow])

end Sys2Proof.Machine
end

/-! PROOFS. The statement about the I family (42_i_alu.md): R129's template with the immediate read as a signed
number. -/
section
namespace Sys2Proof.Machine

/-- The sum modulo 2^32 is that of the signed readings of register and immediate. -/
theorem aluAdd_immI_eq_ofInt (a : Word) (imm : BitVec 12) :
    aluAdd a (immI imm) = BitVec.ofInt 32 (a.toInt + imm.toInt) := by
  rw [BitVec.ofInt_add, BitVec.ofInt_toInt, aluAdd, immI_eq_ofInt]

theorem aluAnd_immI_eq_and_ofInt (a : Word) (imm : BitVec 12) :
    aluAnd a (immI imm) = a &&& BitVec.ofInt 32 imm.toInt := rfl

theorem aluOr_immI_eq_or_ofInt (a : Word) (imm : BitVec 12) :
    aluOr a (immI imm) = a ||| BitVec.ofInt 32 imm.toInt := rfl

/-- Settles O40: R129's template with the three operations, each on the sign-extended immediate (R71). -/
theorem immediateAluUsesSignedImmediate : Obligations.ImmediateAluUsesSignedImmediate := by
  unfold Obligations.ImmediateAluUsesSignedImmediate
  refine ⟨fun s rd rs1 imm => ⟨?_, ?_, ?_⟩, by decide, by decide, by decide⟩
  · exact aluAdd_immI_eq_ofInt _ _ ▸ execI_spec aluAdd rd rs1 imm s
  · exact aluAnd_immI_eq_and_ofInt _ _ ▸ execI_spec aluAnd rd rs1 imm s
  · exact aluOr_immI_eq_or_ofInt _ _ ▸ execI_spec aluOr rd rs1 imm s

end Sys2Proof.Machine
end

/-! PROOFS. The statement about the loads (43_loads.md): R133's template with the value at the effective address
spelled out in bytes. -/
section
namespace Sys2Proof.Machine

theorem effectiveAddress_immI (a : Word) (imm : BitVec 12) :
    effectiveAddress a (immI imm) = a + BitVec.ofInt 32 imm.toInt := by
  rw [effectiveAddress, immI_eq_ofInt]

/-! ### What a load of each width makes of the bytes it reads (R134, R135, R136) -/

theorem Width.extend_readLe_byte (m : Memory) (a : Nat) :
    Width.byte.extend (m.readLe a 1) = (m.peek a).signExtend 32 := by
  rw [Width.extend, Memory.readLe_one, BitVec.setWidth_setWidth_of_le _ (by decide), BitVec.setWidth_eq]

theorem Width.extend_readLe_half (m : Memory) (a : Nat) :
    Width.half.extend (m.readLe a 2) = (m.peek (a + 1) ++ m.peek a).signExtend 32 := by
  rw [Width.extend, Memory.readLe_two, BitVec.setWidth_setWidth_of_le _ (by decide), BitVec.setWidth_eq]

theorem Width.extend_readLe_word (m : Memory) (a : Nat) :
    Width.word.extend (m.readLe a 4) = m.peek (a + 3) ++ m.peek (a + 2) ++ m.peek (a + 1) ++ m.peek a := by
  rw [Width.extend, Memory.readLe_four]
  exact BitVec.setWidth_eq _

/-- Settles O41: R133's template at the three widths, where the check passes and where it fails. A byte or a
half-word is cut out of the word read before it is extended, which gives its bytes back. -/
theorem loadsReadAndSignExtend : Obligations.LoadsReadAndSignExtend := by
  unfold Obligations.LoadsReadAndSignExtend
  refine ⟨fun s rd rs1 imm ea hea => ?_, by decide, by decide, by decide, by decide, by decide⟩
  obtain rfl : ea = effectiveAddress (s.reg rs1) (immI imm) := hea.trans (effectiveAddress_immI _ _).symm
  refine ⟨fun h => ?_, fun h => ?_, fun h => ?_, fun h => ?_, fun h => ?_, fun h => ?_⟩
  · rw [← Width.extend_readLe_byte]
    exact execLoad_ok (n := .byte) h
  · rw [← Width.extend_readLe_half]
    exact execLoad_ok (n := .half) h
  · rw [← Width.extend_readLe_word]
    exact execLoad_ok (n := .word) h
  · exact execLoad_error (n := .byte) h
  · exact execLoad_error (n := .half) h
  · exact execLoad_error (n := .word) h

end Sys2Proof.Machine
end

/-! PROOFS. The statements about the stores (44_stores.md): R139's template with the bytes it writes, and a load that
reads them back (R144). -/
section
namespace Sys2Proof.Machine

theorem effectiveAddress_immS (a : Word) (imm : BitVec 12) :
    effectiveAddress a (immS imm) = a + BitVec.ofInt 32 imm.toInt := by
  rw [effectiveAddress, immS_eq_ofInt]

/-! ### The bytes a store writes (R140, R141, R142) -/

/-- R139's template, its memory read byte by byte. -/
theorem execStore_bytes {n : Width} {rs1 rs2 : Reg} {imm : BitVec 12} {s : State} {ea : Word} (hm : s.mem.wf = true)
    (hea : ea = effectiveAddress (s.reg rs1) (immS imm)) (h : accessOk s.params ea n.bytes = true) :
    ∃ t, execStore n rs1 rs2 imm s = .next t
      ∧ (∀ k, k < n.bytes → t.mem.peek (ea.toNat + k) = (s.reg rs2).extractLsb' (8 * k) 8)
      ∧ SameMemoryOutside s t ea.toNat n.bytes
      ∧ SameRegisters s t ∧ t.aluResult = ea ∧ Staged s t rs1 rs2 (rdInS imm) ∧ Retired s t (s.pc + 4) := by
  subst hea
  obtain ⟨t, hnext, hmem, hrest⟩ := execStore_ok h
  refine ⟨t, hnext, fun k hk => ?_, fun b hb => ?_, hrest⟩
  · rw [hmem, Memory.peek_writeLe_inside hm _ _ hk]
  · rw [hmem, Memory.peek_writeLe_outside _ _ hb]

/-- Settles O42: R139's template at the three widths, where the check passes and where it fails; the one byte of sb
is its byte 0. -/
theorem storesWriteLowBytes : Obligations.StoresWriteLowBytes := by
  unfold Obligations.StoresWriteLowBytes
  refine ⟨fun s rs1 rs2 imm ea hm hea => ?_, by decide, by decide, by decide⟩
  obtain rfl : ea = effectiveAddress (s.reg rs1) (immS imm) := hea.trans (effectiveAddress_immS _ _).symm
  refine ⟨fun h => ?_, fun h => ?_, fun h => ?_, fun h => ?_, fun h => ?_, fun h => ?_⟩
  · obtain ⟨t, hnext, hbytes, hrest⟩ := execStore_bytes (n := .byte) hm rfl h
    exact ⟨t, hnext, hbytes 0 Nat.one_pos, hrest⟩
  · exact execStore_bytes (n := .half) hm rfl h
  · exact execStore_bytes (n := .word) hm rfl h
  · exact execStore_error (n := .byte) h
  · exact execStore_error (n := .half) h
  · exact execStore_error (n := .word) h

/-! ### A load of the bytes stored (R144) -/

theorem Memory.setWidth_readLe_writeLe {m : Memory} (hm : m.wf = true) (a : Nat) (v : Word) {n : Nat} (hn : n ≤ 4) :
    ((m.writeLe a v n).readLe a n).setWidth (8 * n) = v.setWidth (8 * n) := by
  apply BitVec.eq_of_getLsbD_eq
  intro i hi
  rw [BitVec.getLsbD_setWidth, BitVec.getLsbD_setWidth, Memory.getLsbD_readLe_writeLe hm a v (by omega)]
  simp [hi]

/-- What a load makes of the word it reads rests on the bytes of its width alone. -/
theorem Width.extend_readLe_writeLe (n : Width) {m : Memory} (hm : m.wf = true) (a : Nat) (v : Word) :
    n.extend ((m.writeLe a v n.bytes).readLe a n.bytes) = n.extend v := by
  cases n with
  | byte => exact congrArg (BitVec.signExtend 32) (Memory.setWidth_readLe_writeLe hm a v (n := 1) (by decide))
  | half => exact congrArg (BitVec.signExtend 32) (Memory.setWidth_readLe_writeLe hm a v (n := 2) (by decide))
  | word => exact Memory.readLe_writeLe_word hm a v

/-- The store leaves the base register and the parameters as they were, so the load has the same address and passes
the same check. -/
theorem execLoad_after_execStore (n : Width) {rs1 : Reg} (rs2 rd : Reg) {imm : BitVec 12} {s : State}
    (hm : s.mem.wf = true) (h : accessOk s.params (s.reg rs1 + BitVec.ofInt 32 imm.toInt) n.bytes = true) :
    ∃ t u, execStore n rs1 rs2 imm s = .next t ∧ execLoad n rd rs1 imm t = .next u
      ∧ u.reg rd = n.extend (s.reg rs2) := by
  rw [← effectiveAddress_immS] at h
  obtain ⟨t, hstore, hmem, hregs, -, -, -, -, -, ⟨hparams, -, -⟩⟩ := execStore_ok (rs2 := rs2) h
  have hea : effectiveAddress (t.reg rs1) (immI imm) = effectiveAddress (s.reg rs1) (immS imm) := by
    rw [effectiveAddress_immI, effectiveAddress_immS, hregs rs1]
  have hcheck : accessOk t.params (effectiveAddress (t.reg rs1) (immI imm)) n.bytes = true := by
    rw [hea, hparams, h]
  obtain ⟨u, hload, -, hrd, -⟩ := execLoad_ok (rd := rd) hcheck
  exact ⟨t, u, hstore, hload, by rw [hrd, hea, hmem, Width.extend_readLe_writeLe n hm]⟩

/-- Settles O44: the store and the load of one width, at the three widths. -/
theorem storeThenLoadReturnsBytes : Obligations.StoreThenLoadReturnsBytes := by
  unfold Obligations.StoreThenLoadReturnsBytes
  intro s rs1 rs2 rd imm hm
  refine ⟨fun h => ?_, fun h => ?_, fun h => ?_⟩
  · exact execLoad_after_execStore .byte rs2 rd hm h
  · exact execLoad_after_execStore .half rs2 rd hm h
  · exact execLoad_after_execStore .word rs2 rd hm h

end Sys2Proof.Machine
end

/-! PROOFS. The statement about the branches (45_branches.md): R145's template with each predicate as a proposition
about the two operands. -/
section
namespace Sys2Proof.Machine

/-! ### The predicates (R146 to R149) -/

theorem condEq_iff (a b : Word) : condEq a b = true ↔ a = b := beq_iff_eq

theorem condNe_iff (a b : Word) : condNe a b = true ↔ ¬ a = b := bne_iff_ne

theorem condLt_iff (a b : Word) : condLt a b = true ↔ a.toInt < b.toInt := decide_eq_true_iff

theorem condGe_iff (a b : Word) : condGe a b = true ↔ ¬ a.toInt < b.toInt := decide_eq_true_iff.trans Int.not_lt.symm

/-- R145's template, the predicate given as a proposition `P` and the offset as a number. -/
theorem execBranch_of_cond_iff {cond : Word → Word → Bool} {rs1 rs2 : Reg} {off : BitVec 13} {s : State}
    {taken : Word} {P : Prop} [Decidable P] (hP : cond (s.reg rs1) (s.reg rs2) = true ↔ P)
    (htaken : taken = s.pc + BitVec.ofInt 32 off.toInt) :
    ∃ t, execBranch cond rs1 rs2 off s = .next t ∧ SameRegisters s t ∧ SameMemory s t
      ∧ Staged s t rs1 rs2 (rdInB off) ∧ t.aluResult = BitVec.ofInt 32 off.toInt
      ∧ Retired s t (if P then taken else s.pc + 4) := by
  obtain ⟨t, hnext, hregs, hmem, hstaged, halu, hretired⟩ := execBranch_spec cond rs1 rs2 off s
  have hsame : SameMemory s t := fun b => by rw [hmem]
  simp only [hP, immB_eq_ofInt, ← htaken] at halu hretired
  exact ⟨t, hnext, hregs, hsame, hstaged, halu, hretired⟩

/-- Settles O46: R145's template with the four predicates; those of bne and bge are the negations of equality and of
the signed order, so their clauses have the two targets exchanged. -/
theorem branchesFollowTheirPredicate : Obligations.BranchesFollowTheirPredicate := by
  unfold Obligations.BranchesFollowTheirPredicate
  refine ⟨fun s rs1 rs2 off taken htaken => ⟨?_, ?_, ?_, ?_⟩, by decide, by decide, by decide, by decide⟩
  · exact execBranch_of_cond_iff (condEq_iff _ _) htaken
  · rw [← ite_not]
    exact execBranch_of_cond_iff (condNe_iff _ _) htaken
  · exact execBranch_of_cond_iff (condLt_iff _ _) htaken
  · rw [← ite_not]
    exact execBranch_of_cond_iff (condGe_iff _ _) htaken

end Sys2Proof.Machine
end

/-! PROOFS. The statement about the upper immediates (46_upper.md): R150's template with the 20-bit field read as a
multiple of 4096. -/
section
namespace Sys2Proof.Machine

/-- Twelve zero bits below the field multiply it by 2^12. -/
theorem immU_eq_ofNat (imm : BitVec 20) : immU imm = BitVec.ofNat 32 (imm.toNat * 4096) := by
  apply BitVec.eq_of_toNat_eq
  rw [immU, BitVec.toNat_append, BitVec.toNat_ofNat, BitVec.toNat_ofNat, Nat.zero_mod, Nat.or_zero, Nat.shiftLeft_eq]
  omega

/-- Settles O47: R150's template with the immediate alone (R151) and added to the instruction's own address (R152). -/
theorem upperImmediatesShiftByTwelve : Obligations.UpperImmediatesShiftByTwelve := by
  unfold Obligations.UpperImmediatesShiftByTwelve
  refine ⟨fun s rd imm => ⟨?_, ?_⟩, by decide, by decide⟩
  · exact immU_eq_ofNat imm ▸ execUpper_spec (fun _ v => v) rd imm s
  · exact immU_eq_ofNat imm ▸ execUpper_spec (fun pc v => pc + v) rd imm s

end Sys2Proof.Machine
end

/-! PROOFS. The statements about the jumps (47_jumps.md): the link and the jump, said once for both, and the two
targets read as numbers. -/
section
namespace Sys2Proof.Machine

/-- The target with bit 0 cleared: the sum halved and doubled (R155). -/
theorem jalrTarget_eq_ofNat (base disp : Word) :
    jalrTarget base disp = BitVec.ofNat 32 ((base + disp).toNat / 2 * 2) := by
  have hmask : (0xFFFFFFFE : Word) = BitVec.allOnes 32 <<< 1 := by decide
  rw [jalrTarget, hmask, ← BitVec.shiftLeft_ushiftRight]
  apply BitVec.eq_of_toNat_eq
  rw [BitVec.toNat_shiftLeft, BitVec.toNat_ushiftRight, Nat.shiftLeft_eq, Nat.shiftRight_eq_div_pow,
    BitVec.toNat_ofNat]

/-- What the link and the jump leave after decode has staged the operands (R153, R155): the link goes to rd unless
that is x0, and execution goes on at the target. -/
theorem link_jumpTo_retire_spec (s : State) (rs1 rs2 rd : Reg) (target : Word) {t : State}
    (ht : t = ((s.stage rs1 rs2 rd).link.jumpTo target).retire) :
    (rd ≠ 0 → t.reg rd = s.pc + 4) ∧ (rd = 0 → t.reg 0 = s.reg 0)
      ∧ SameRegistersBut s t rd ∧ SameMemory s t ∧ Staged s t rs1 rs2 rd ∧ Retired s t target := by
  subst ht
  have hreg : ∀ q, (((s.stage rs1 rs2 rd).link.jumpTo target).retire).reg q
      = if q = rd ∧ rd ≠ 0 then s.pc + 4 else s.reg q := State.reg_link (s.stage rs1 rs2 rd)
  refine ⟨fun hrd => ?linked, fun hrd => ?kept, fun r hr => ?others, fun b => ?memory, ?staged, ?retired⟩
  case linked => rw [hreg, if_pos ⟨rfl, hrd⟩]
  case kept => rw [hreg, if_neg fun h => h.2 hrd]
  case others => rw [hreg, if_neg fun h => hr h.1]
  case memory => simp
  case staged => simp [Staged]
  case retired => simp [Retired, SameControl]

/-- Settles O48: the link and the jump, to jal's own address plus the signed offset. -/
theorem jalLinksUnlessRdIsZero : Obligations.JalLinksUnlessRdIsZero := by
  unfold Obligations.JalLinksUnlessRdIsZero
  refine ⟨fun s rd off => ⟨_, rfl, ?_⟩, by decide⟩
  exact immJ_eq_ofInt off ▸ link_jumpTo_retire_spec s _ _ rd (s.pc + immJ off) rfl

/-- Settles O49: the link and the jump, to a target computed from operand1, which decode read before the link was
written (R98), so that rd = rs1 needs no case of its own. -/
theorem jalrJumpsThroughOldRegister : Obligations.JalrJumpsThroughOldRegister := by
  unfold Obligations.JalrJumpsThroughOldRegister
  refine ⟨fun s rd rs1 imm => ⟨_, rfl, ?_⟩, by decide⟩
  rw [← immI_eq_ofInt, ← jalrTarget_eq_ofNat]
  exact link_jumpTo_retire_spec s rs1 _ rd _ rfl

end Sys2Proof.Machine
end

/-! PROOFS. The statements that the decoder and the encoder undo each other (95_test_vectors.md V1), that no two rows
of the opcode table overlap (R78), and which rows ADMIT_UNNAMED takes away (R81). -/
section
namespace Sys2Proof.Machine

/-! ### Dispatch on the opcode (R77, R85) -/

section
variable {w : Word}

theorem decodeWord_of_opR (h : opcodeOf w = opR) : decodeWord w = decodeR w := by
  rw [decodeWord, if_neg (ne_trapWord_of_known (by rw [h]; decide)), h]; rfl

theorem decodeWord_of_opImm (h : opcodeOf w = opImm) : decodeWord w = decodeImm w := by
  rw [decodeWord, if_neg (ne_trapWord_of_known (by rw [h]; decide)), h]; rfl

theorem decodeWord_of_opLoad (h : opcodeOf w = opLoad) : decodeWord w = decodeLoad w := by
  rw [decodeWord, if_neg (ne_trapWord_of_known (by rw [h]; decide)), h]; rfl

theorem decodeWord_of_opStore (h : opcodeOf w = opStore) : decodeWord w = decodeStore w := by
  rw [decodeWord, if_neg (ne_trapWord_of_known (by rw [h]; decide)), h]; rfl

theorem decodeWord_of_opBranch (h : opcodeOf w = opBranch) : decodeWord w = decodeBranch w := by
  rw [decodeWord, if_neg (ne_trapWord_of_known (by rw [h]; decide)), h]; rfl

theorem decodeWord_of_opJalr (h : opcodeOf w = opJalr) : decodeWord w = decodeJalr w := by
  rw [decodeWord, if_neg (ne_trapWord_of_known (by rw [h]; decide)), h]; rfl

theorem decodeWord_of_opLui (h : opcodeOf w = opLui) : decodeWord w = .instr (.lui (rdOf w) (immUField w)) := by
  rw [decodeWord, if_neg (ne_trapWord_of_known (by rw [h]; decide)), h]; rfl

theorem decodeWord_of_opAuipc (h : opcodeOf w = opAuipc) :
    decodeWord w = .instr (.auipc (rdOf w) (immUField w)) := by
  rw [decodeWord, if_neg (ne_trapWord_of_known (by rw [h]; decide)), h]; rfl

theorem decodeWord_of_opJal (h : opcodeOf w = opJal) : decodeWord w = .instr (.jal (rdOf w) (immJField w)) := by
  rw [decodeWord, if_neg (ne_trapWord_of_known (by rw [h]; decide)), h]; rfl

end

theorem decodeWord_trapWord : decodeWord Config.trapWord = .instr .exitTrap := rfl

/-! ### Encoding and decoding back -/

/-- Settles O10: the opcode of an encoded word selects its family's decoder, which reads back the key and the operand
fields that the encoder put there; an even offset is read back whole. -/
theorem decodeOfEncodeIsIdentity : Obligations.DecodeOfEncodeIsIdentity := by
  unfold Obligations.DecodeOfEncodeIsIdentity
  intro i hwf
  cases i
  case add | sub | sll | slt | xor | srl | sra | or | and | mul | div | rem =>
    simp [encode, decodeWord_of_opR, decodeR]
  case addi | andi | ori => simp [encode, decodeWord_of_opImm, decodeImm]
  case lb | lh | lw | ld => simp [encode, decodeWord_of_opLoad, decodeLoad]
  case sb | sh | sw | sd => simp [encode, decodeWord_of_opStore, decodeStore]
  case beq | bne | blt | bge =>
    simp [encode, decodeWord_of_opBranch, decodeBranch, immBField_encB _ _ _ _ _ hwf]
  case jalr => simp [encode, decodeWord_of_opJalr, decodeJalr]
  case lui => simp [encode, decodeWord_of_opLui]
  case auipc => simp [encode, decodeWord_of_opAuipc]
  case jal => simp [encode, decodeWord_of_opJal, immJField_encJ _ _ _ hwf]
  case exitTrap => exact decodeWord_trapWord

/-- A decoded offset is one that `immBField` or `immJField` gave, so it is even; no other instruction has a condition
on its operands. -/
theorem wf_of_decodeWord {w : Word} {i : Instr} (h : decodeWord w = .instr i) : i.wf = true := by
  have henc := encode_of_decodeWord h
  subst henc
  cases i
  case beq | bne | blt | bge =>
    simp [encode, decodeWord_of_opBranch, decodeBranch] at h
    rw [Instr.wf, ← h]
    exact evenOffset_immBField _
  case jal =>
    simp [encode, decodeWord_of_opJal] at h
    rw [Instr.wf, ← h]
    exact evenOffset_immJField _
  all_goals rfl

/-- Settles O11, from the two halves above: the encoding of what a word decodes to is the word, and offsets read from
a word are even. -/
theorem encodeOfDecodeIsIdentity : Obligations.EncodeOfDecodeIsIdentity := by
  unfold Obligations.EncodeOfDecodeIsIdentity
  exact fun _ _ h => ⟨wf_of_decodeWord h, encode_of_decodeWord h⟩

/-- Settles O9: each word is decoded by evaluation. -/
theorem exampleWordsDecode : Obligations.ExampleWordsDecode := by
  unfold Obligations.ExampleWordsDecode
  decide

/-! ### The rows of the table (R78) -/

/-- A word that two rows select has both match values, so these agree on the bits that both masks cover. -/
theorem pattern_and_mask_eq_of_selects {r q : Row} {w : Word} (hr : r.selects w = true) (hq : q.selects w = true) :
    r.pattern &&& q.mask = q.pattern &&& r.mask := by
  rw [← eq_of_beq hr, ← eq_of_beq hq, BitVec.and_assoc, BitVec.and_comm r.mask, BitVec.and_assoc]

/-- Any two rows differ in a bit that both masks cover. -/
theorem opcodeTable_pairwise_disjoint :
    opcodeTable.Pairwise fun r q => r.pattern &&& q.mask ≠ q.pattern &&& r.mask := by decide

/-- Settles O13: any two rows differ in a bit that both look at. -/
theorem opcodeRowsNeverOverlap : Obligations.OpcodeRowsNeverOverlap := by
  unfold Obligations.OpcodeRowsNeverOverlap
  refine ⟨rfl, opcodeTable_pairwise_disjoint.imp fun hdiff w => ?_⟩
  rintro ⟨hr, hq⟩
  exact hdiff (pattern_and_mask_eq_of_selects hr hq)

/-! ### The rows that ADMIT_UNNAMED takes away (R81) -/

theorem classify_eq_decodeWord_of_admitUnnamed {p : Params} (hp : p.admitUnnamed = true) (w : Word) :
    classify p w = decodeWord w := by
  cases h : decodeWord w with
  | instr i => exact classify_of_admitted hp h
  | nopUnknown => exact classify_of_nopUnknown h
  | illegal => exact classify_of_illegal h

theorem classify_of_inSource {p : Params} {w : Word} {i : Instr} (h : decodeWord w = .instr i)
    (hi : i.inSource = true) : classify p w = .instr i := by
  simp [classify, h, hi]

/-- Settles O14: with the parameter true no row is taken away, and with it false those that are not in the source,
which are the 18 that R81 lists. -/
theorem unnamedRowsFollowParameter : Obligations.UnnamedRowsFollowParameter := by
  unfold Obligations.UnnamedRowsFollowParameter
  refine fun p w => ⟨fun hp => classify_eq_decodeWord_of_admitUnnamed hp w, fun hp i hi => ?_⟩
  split
  next hlisted => exact classify_of_unnamed hp hi ((inSource_eq_false_iff i).mpr hlisted)
  next hnot =>
    have hsource : i.inSource ≠ false := fun h => hnot ((inSource_eq_false_iff i).mp h)
    exact classify_of_inSource hi (Bool.eq_true_of_not_eq_false hsource)

end Sys2Proof.Machine
end

/-! PROOFS. The statement about the physical buffer (20_memory.md R42, R43; log 7). -/
section
namespace Sys2Proof.Machine

theorem lt_two_pow_of_valid {p : Params} (hp : p.wf = true) {a : Nat} (h : valid p a = true) : a < 2 ^ 32 := by
  rw [wf_params_iff] at hp
  rw [valid_iff] at h
  omega

/-- An address in the low region keeps its place below 4096, and one in the data region is moved to 4096 and up. -/
theorem bufferIndex_of_valid {p : Params} {a : Nat} (h : valid p a = true) :
    (a < 4096 ∧ bufferIndex a = a)
      ∨ (0x10000000 ≤ a ∧ a - 0x10000000 < p.memSize - 4096 ∧ bufferIndex a = a - 0x10000000 + 4096) := by
  obtain hlow | ⟨hdata, hsize⟩ := (valid_iff p a).mp h
  · exact .inl ⟨hlow, bufferIndex_low (by omega)⟩
  · exact .inr ⟨hdata, hsize, bufferIndex_high hdata⟩

theorem bufferIndex_lt_memSize {p : Params} (hp : p.wf = true) {a : Nat} (h : valid p a = true) :
    bufferIndex a < p.memSize := by
  rw [wf_params_iff] at hp
  obtain ⟨_, hi⟩ | ⟨_, _, hi⟩ := bufferIndex_of_valid h <;> omega

/-- The two regions go to disjoint parts of the buffer, and within each the translation is a shift. -/
theorem bufferIndex_injective_on_valid {p : Params} {a b : Nat} (ha : valid p a = true) (hb : valid p b = true)
    (h : bufferIndex a = bufferIndex b) : a = b := by
  obtain ⟨_, hi⟩ | ⟨_, _, hi⟩ := bufferIndex_of_valid ha <;>
    obtain ⟨_, hj⟩ | ⟨_, _, hj⟩ := bufferIndex_of_valid hb <;> omega

theorem exists_valid_of_lt_memSize {p : Params} {i : Nat} (h : i < p.memSize) :
    ∃ a, valid p a = true ∧ bufferIndex a = i := by
  by_cases hlow : i < 4096
  · exact ⟨i, (valid_iff p i).mpr (.inl hlow), bufferIndex_low (by omega)⟩
  · refine ⟨i - 4096 + 0x10000000, (valid_iff p _).mpr (.inr (by omega)), ?_⟩
    rw [bufferIndex_high (by omega)]
    omega

/-- Settles O5: R42's two formulas, and the facts above about valid addresses. -/
theorem translationIsOneToOneOnValid : Obligations.TranslationIsOneToOneOnValid := by
  unfold Obligations.TranslationIsOneToOneOnValid
  refine ⟨fun _ h => bufferIndex_low h, fun _ h => bufferIndex_high h, fun p hp => ⟨fun a h => ?_, ?_, ?_⟩⟩
  · exact ⟨lt_two_pow_of_valid hp h, bufferIndex_lt_memSize hp h⟩
  · exact fun a b ha hb h => bufferIndex_injective_on_valid ha hb h
  · exact fun i h => exists_valid_of_lt_memSize h

end Sys2Proof.Machine
end

/-! PROOFS. The statements about every step (40_cycle.md, 60_exceptions.md): each next state is the trap's, a no-op's
or a completed instruction's, and each fault has one of the causes of R162; what every step keeps follows. -/
section
namespace Sys2Proof.Machine

/-! ### The trap word (R79, R158) -/

theorem classify_trapWord (p : Params) : classify p Config.trapWord = .instr .exitTrap :=
  classify_of_inSource decodeWord_trapWord rfl

theorem eq_trapWord_of_classify {p : Params} {w : Word} (h : classify p w = .instr .exitTrap) :
    w = Config.trapWord :=
  (encode_of_decodeWord (decodeWord_of_classify h)).symm

theorem step_ne_next_of_stopped {s : State} (hs : s.status ≠ .running) (t : State) : step s ≠ .next t :=
  fun h => hs (step_running (by rw [h]; nofun))

theorem step_ne_fault_of_stopped {s : State} (hs : s.status ≠ .running) (f : Fault) : step s ≠ .fault f :=
  fun h => hs (step_running (by rw [h]; nofun))

theorem step_trapWord {s : State} (hs : s.status = .running) (hf : s.fetchRead = .ok Config.trapWord) :
    step s = .next (s.latch Config.trapWord).halt :=
  step_instr hs hf (classify_trapWord s.params)

/-- Settles O20: the meaning of the trap is `State.halt`, and each conjunct is a law of `State.latch` and
`State.halt`; a core that is not Running takes no step. -/
theorem trapWordHalts : Obligations.TrapWordHalts := by
  unfold Obligations.TrapWordHalts
  refine fun s => ⟨⟨s.halt, rfl, rfl⟩, fun hs hf => ⟨_, step_trapWord hs hf, ?_⟩⟩
  have hstop : ∀ u, step (s.latch Config.trapWord).halt ≠ .next u := step_ne_next_of_stopped (by simp)
  simp [SameRegisters, SameMemory, SameLatches, hstop]

/-! ### What a next state of step is -/

/-- The three ways a step that fetched w can complete. -/
inductive StepDone (s t : State) (w : Word) : Prop where
  | trap (hw : w = Config.trapWord) (ht : t = (s.latch w).halt)
  | nop (hw : w ≠ Config.trapWord) (hc : classify s.params w = .nopUnknown) (ht : t = (s.latch w).nopStep)
  | instr (i : Instr) (hw : w ≠ Config.trapWord) (hc : classify s.params w = .instr i)
      (hdone : Completed i (s.latch w) t)

theorem stepDone_of_step_next {s t : State} (h : step s = .next t) :
    s.status = .running ∧ ∃ w, s.fetchRead = .ok w ∧ StepDone s t w := by
  obtain ⟨hs, _, w, hf, ⟨hc, ht⟩ | ⟨i, hc, hexec⟩⟩ := step_next h
  · refine ⟨hs, w, hf, .nop (fun hw => ?_) hc ht⟩
    rw [hw, classify_trapWord] at hc
    cases hc
  · refine ⟨hs, w, hf, ?_⟩
    obtain ⟨rfl, ht⟩ | ⟨hi, hdone⟩ := exec_next hexec
    · exact .trap (eq_trapWord_of_classify hc) ht
    · refine .instr i (fun hw => hi ?_) hc hdone
      rw [hw, classify_trapWord] at hc
      cases hc
      rfl

/-- The same for the word that is known to have been fetched. -/
theorem stepDone_of_fetch {s t : State} {w : Word} (hf : s.fetchRead = .ok w) (h : step s = .next t) :
    s.status = .running ∧ StepDone s t w := by
  obtain ⟨hs, v, hv, hdone⟩ := stepDone_of_step_next h
  rw [hf] at hv
  cases hv
  exact ⟨hs, hdone⟩

/-! ### What every step keeps -/

/-- Settles O32: none of the three ways writes the parameters. -/
theorem parametersNeverChange : Obligations.ParametersNeverChange := by
  unfold Obligations.ParametersNeverChange
  intro s t h
  obtain ⟨-, w, -, hdone⟩ := stepDone_of_step_next h
  cases hdone with
  | trap _ ht => rw [ht]; rfl
  | nop _ _ ht => rw [ht]; rfl
  | instr i _ _ hdone => exact hdone.control.1

/-- The memory part of the invariant through a completed instruction: a store writes only bytes that its check found
valid. -/
theorem Completed.mem_inv {i : Instr} {s t : State} (h : Completed i s t) (hwf : s.mem.wf = true)
    (hrange : Memory.inRange s.params s.mem = true) :
    t.mem.wf = true ∧ Memory.inRange s.params t.mem = true := by
  obtain hmem | ⟨a, n, v, -, hok, hmem⟩ := h.mem
  · rw [hmem]
    exact ⟨hwf, hrange⟩
  · rw [hmem]
    exact ⟨Memory.writeLe_wf hwf _ _ _, Memory.inRange_writeLe hrange ((accessOk_iff _ _ _).mp hok).2 _⟩

/-- Settles O26, by the three ways of a step: the trap changes no part of the invariant, a no-op moves pc by 4, and a
completed instruction keeps memory in form and in range and pc even, its offset being even as a decoded one. -/
theorem stepKeepsInvariant : Obligations.StepKeepsInvariant := by
  unfold Obligations.StepKeepsInvariant
  intro s t hinv h
  obtain ⟨hp, hwf, hrange, hpc, hskip⟩ := (inv_iff s).mp hinv
  obtain ⟨-, w, -, hdone⟩ := stepDone_of_step_next h
  rw [inv_iff]
  cases hdone with
  | trap _ ht =>
    subst ht
    exact ⟨hp, hwf, hrange, hpc, hskip⟩
  | nop _ _ ht =>
    subst ht
    exact ⟨hp, hwf, hrange, (getLsbD_zero_add_four s.pc).trans hpc, rfl⟩
  | instr i _ hc hdone =>
    obtain ⟨hwf', hrange'⟩ := hdone.mem_inv hwf hrange
    rw [hdone.control.1]
    exact ⟨hp, hwf', hrange', hdone.pc_even (wf_of_decodeWord (decodeWord_of_classify hc)) hpc, hdone.skip⟩

/-- Settles O21: the trap halts, and a no-op and a completed instruction leave the status as it was, Running. -/
theorem haltsExactlyOnTheTrapWord : Obligations.HaltsExactlyOnTheTrapWord := by
  unfold Obligations.HaltsExactlyOnTheTrapWord
  intro s t h
  obtain ⟨hs, w, hf, hdone⟩ := stepDone_of_step_next h
  rw [hf, ne_eq, Except.ok.injEq]
  cases hdone with
  | trap hw ht => exact .inl ⟨hw, by rw [ht]; rfl⟩
  | nop hw _ ht => exact .inr ⟨hw, by rw [ht]; exact hs⟩
  | instr i hw _ hdone => exact .inr ⟨hw, hdone.control.2.1.trans hs⟩

/-- Settles O30: the trap leaves cycles and pc, and the two other ways count one cycle and clear skip. -/
theorem completionCountsOneCycle : Obligations.CompletionCountsOneCycle := by
  unfold Obligations.CompletionCountsOneCycle
  intro s t w hf h
  obtain ⟨hs, hdone⟩ := stepDone_of_fetch hf h
  cases hdone with
  | trap hw ht =>
    subst ht
    exact ⟨fun _ => ⟨rfl, rfl, rfl⟩, fun hne => absurd hw hne⟩
  | nop hw _ ht =>
    subst ht
    exact ⟨fun heq => absurd heq hw, fun _ => ⟨hs, rfl, rfl, .inl rfl⟩⟩
  | instr i hw hc hdone =>
    exact ⟨fun heq => absurd heq hw, fun _ =>
      ⟨hdone.control.2.1.trans hs, hdone.cycles, hdone.skip, hdone.pc.imp_right fun hmn => ⟨i, hc, hmn⟩⟩⟩

/-- Settles O28: the trap and the no-op write no register, and a completed instruction only its destination. -/
theorem onlyTheDestinationChanges : Obligations.OnlyTheDestinationChanges := by
  unfold Obligations.OnlyTheDestinationChanges
  intro s t w hf h r hne
  obtain ⟨-, hdone⟩ := stepDone_of_fetch hf h
  cases hdone with
  | trap _ ht => subst ht; exact absurd rfl hne
  | nop _ _ ht => subst ht; exact absurd rfl hne
  | instr i _ hc hdone => exact ⟨i, hc, hdone.regs r hne⟩

theorem storeRange_latch (s : State) (w : Word) (i : Instr) : storeRange (s.latch w) i = storeRange s i := by
  cases i <;> rfl

theorem loadRange_latch (s : State) (w : Word) (i : Instr) : loadRange (s.latch w) i = loadRange s i := by
  cases i <;> rfl

/-- Settles O29: only a completed store writes memory, and the write leaves every byte outside its range. -/
theorem onlyStoresChangeMemory : Obligations.OnlyStoresChangeMemory := by
  unfold Obligations.OnlyStoresChangeMemory
  intro s t w hf h b hne
  obtain ⟨-, hdone⟩ := stepDone_of_fetch hf h
  cases hdone with
  | trap _ ht => subst ht; exact absurd rfl hne
  | nop _ _ ht => subst ht; exact absurd rfl hne
  | instr i _ hc hdone =>
    obtain hmem | ⟨a, n, v, hrange, -, hmem⟩ := hdone.mem
    · exact absurd (by rw [hmem]; rfl) hne
    · rw [storeRange_latch] at hrange
      have hin : ¬ (b < a.toNat ∨ a.toNat + n ≤ b) := fun hout => hne (by
        rw [hmem]; exact Memory.peek_writeLe_outside s.mem v hout)
      exact ⟨i, a, n, hc, hrange, by omega, by omega⟩

/-- Settles O31: `Completed` states the staging by the fields of the instruction's encoding, which is the word. -/
theorem decodeStagesTheLatches : Obligations.DecodeStagesTheLatches := by
  unfold Obligations.DecodeStagesTheLatches
  intro s t w i hf h hc hi
  obtain ⟨-, hdone⟩ := stepDone_of_fetch hf h
  cases hdone with
  | trap hw _ =>
    rw [hw, classify_trapWord] at hc
    cases hc
    exact absurd rfl hi
  | nop _ hnop _ => rw [hc] at hnop; cases hnop
  | instr j _ hj hdone =>
    rw [hc] at hj
    cases hj
    obtain ⟨h1, h2, hd⟩ := hdone.staged
    rw [encode_of_decodeWord (decodeWord_of_classify hc)] at h1 h2 hd
    exact ⟨h1, h2, hd, hdone.control.2.2⟩

/-! ### What a step runs (R102) -/

/-- Settles O16: `step_instr`, with the latch of IR written out. -/
theorem stepRunsDecodedInstruction : Obligations.StepRunsDecodedInstruction := by
  unfold Obligations.StepRunsDecodedInstruction
  exact fun _ _ _ hs hf hc => step_instr hs hf hc

theorem step_of_fetch_error {s : State} {f : Fault} (hs : s.status = .running) (hf : s.fetchRead = .error f) :
    step s = .fault f := by
  rw [step, hs]
  simp [hf, raise]

/-- Settles O19: the fetch fails with the fault, and the step raises it. -/
theorem invalidFetchFaults : Obligations.InvalidFetchFaults := by
  unfold Obligations.InvalidFetchFaults
  exact fun _ hs hok => step_of_fetch_error hs (State.fetchRead_error hok)

/-! ### Refusals (R9) -/

theorem execRDiv_ne_refused (f : DivOverflowPolicy → Word → Word → Option Word) (rd rs1 rs2 : Reg) (s : State)
    (r : Refusal) : execRDiv f rd rs1 rs2 s ≠ .refused r := by
  cases hv : f s.params.divOverflow (s.reg rs1) (s.reg rs2) with
  | none => rw [execRDiv_none hv]; nofun
  | some v => obtain ⟨t, ht, -⟩ := execRDiv_some (rd := rd) hv; rw [ht]; nofun

theorem execLoad_ne_refused (n : Width) (rd rs1 : Reg) (imm : BitVec 12) (s : State) (r : Refusal) :
    execLoad n rd rs1 imm s ≠ .refused r := by
  cases hok : accessOk s.params (effectiveAddress (s.reg rs1) (immI imm)) n.bytes with
  | false => rw [execLoad_error hok]; nofun
  | true => obtain ⟨t, ht, -⟩ := execLoad_ok (rd := rd) hok; rw [ht]; nofun

theorem execStore_ne_refused (n : Width) (rs1 rs2 : Reg) (imm : BitVec 12) (s : State) (r : Refusal) :
    execStore n rs1 rs2 imm s ≠ .refused r := by
  cases hok : accessOk s.params (effectiveAddress (s.reg rs1) (immS imm)) n.bytes with
  | false => rw [execStore_error hok]; nofun
  | true => obtain ⟨t, ht, -⟩ := execStore_ok (rs2 := rs2) hok; rw [ht]; nofun

/-- Every instruction has a meaning. -/
theorem exec_ne_refused (i : Instr) (s : State) (r : Refusal) : exec i s ≠ .refused r := by
  cases i
  case div | rem => exact execRDiv_ne_refused _ _ _ _ s r
  case lb | lh | lw => exact execLoad_ne_refused _ _ _ _ s r
  case sb | sh | sw => exact execStore_ne_refused _ _ _ _ s r
  all_goals nofun

/-- Settles O23: the fetch fails, or the word is a no-op, ILLEGAL, or an instruction, and each has an outcome. -/
theorem runningCoreIsNeverRefused : Obligations.RunningCoreIsNeverRefused := by
  unfold Obligations.RunningCoreIsNeverRefused
  intro s hs r
  cases hf : s.fetchRead with
  | error f => rw [step_of_fetch_error hs hf]; nofun
  | ok w =>
    cases hc : classify s.params w with
    | instr i => rw [step_instr hs hf hc]; exact exec_ne_refused i _ r
    | nopUnknown => rw [step_nopUnknown hs hf hc]; nofun
    | illegal => rw [step_illegal hs hf hc]; nofun

/-! ### Faults (R162) -/

/-- The faults that the meaning of an instruction raises (R162, from the third on). -/
inductive ExecFault (i : Instr) (s : State) : Fault → Prop where
  | width (hi : i.mnemonic ∈ ["ld", "sd"]) : ExecFault i s (.unsupportedWidth s.ir)
  | overflow (hi : i.mnemonic ∈ ["div", "rem"]) (hp : s.params.divOverflow = .fault)
      (h1 : s.reg (rs1Of (encode i)) = 0x80000000) (h2 : s.reg (rs2Of (encode i)) = 0xFFFFFFFF) :
      ExecFault i s (.divOverflow s.ir)
  | range (a : Word) (n : Nat) (ha : loadRange s i = some (a, n) ∨ storeRange s i = some (a, n))
      (hok : accessOk s.params a n = false) : ExecFault i s (.memOutOfRange a n)

theorem execFault_of_execRDiv {i : Instr} {f : DivOverflowPolicy → Word → Word → Option Word} {rd rs1 rs2 : Reg}
    {s : State} {e : Fault} (h : execRDiv f rd rs1 rs2 s = .fault e) (hi : i.mnemonic ∈ ["div", "rem"])
    (hf : ∀ p a b, f p a b = none ↔ p = .fault ∧ a = 0x80000000 ∧ b = 0xFFFFFFFF)
    (h1 : rs1Of (encode i) = rs1) (h2 : rs2Of (encode i) = rs2) : ExecFault i s e := by
  obtain ⟨hnone, rfl⟩ := execRDiv_fault h
  obtain ⟨hp, ha, hb⟩ := (hf _ _ _).mp hnone
  exact .overflow hi hp (h1 ▸ ha) (h2 ▸ hb)

theorem execFault_of_execLoad {i : Instr} {n : Width} {rd rs1 : Reg} {imm : BitVec 12} {s : State} {f : Fault}
    (h : execLoad n rd rs1 imm s = .fault f)
    (hi : loadRange s i = some (effectiveAddress (s.reg rs1) (immI imm), n.bytes)) : ExecFault i s f := by
  obtain ⟨hok, rfl⟩ := execLoad_fault h
  exact .range _ _ (.inl hi) hok

theorem execFault_of_execStore {i : Instr} {n : Width} {rs1 rs2 : Reg} {imm : BitVec 12} {s : State} {f : Fault}
    (h : execStore n rs1 rs2 imm s = .fault f)
    (hi : storeRange s i = some (effectiveAddress (s.reg rs1) (immS imm), n.bytes)) : ExecFault i s f := by
  obtain ⟨hok, rfl⟩ := execStore_fault h
  exact .range _ _ (.inr hi) hok

/-- Only ld, sd, div, rem and the loads and stores of a width have a fault. -/
theorem execFault_of_exec {i : Instr} {s : State} {f : Fault} (h : exec i s = .fault f) : ExecFault i s f := by
  cases i
  case ld => cases h; exact .width (by simp [Instr.mnemonic])
  case sd => cases h; exact .width (by simp [Instr.mnemonic])
  case div =>
    exact execFault_of_execRDiv h (by simp [Instr.mnemonic]) aluDiv_eq_none_iff (by simp [encode]) (by simp [encode])
  case rem =>
    exact execFault_of_execRDiv h (by simp [Instr.mnemonic]) aluRem_eq_none_iff (by simp [encode]) (by simp [encode])
  case lb | lh | lw => exact execFault_of_execLoad h rfl
  case sb | sh | sw => exact execFault_of_execStore h rfl
  all_goals cases h

/-- What a fault of step is: the fetch's, that of an ILLEGAL word, or that of the fetched instruction's meaning. -/
theorem step_fault {s : State} {f : Fault} (h : step s = .fault f) :
    s.status = .running ∧ ((accessOk s.params s.pc 4 = false ∧ f = .fetchOutOfRange s.pc)
      ∨ ∃ w, s.fetchRead = .ok w ∧ ((classify s.params w = .illegal ∧ f = .illegalEncoding w)
        ∨ ∃ i, classify s.params w = .instr i ∧ ExecFault i (s.latch w) f)) := by
  have hs : s.status = .running := step_running (by rw [h]; nofun)
  refine ⟨hs, ?_⟩
  cases hok : accessOk s.params s.pc 4 with
  | false =>
    rw [step_of_fetch_error hs (State.fetchRead_error hok)] at h
    cases h
    exact .inl ⟨rfl, rfl⟩
  | true =>
    have hf := State.fetchRead_ok hok
    refine .inr ⟨_, hf, ?_⟩
    cases hc : classify s.params (s.mem.readLe s.pc.toNat 4) with
    | instr i => rw [step_instr hs hf hc] at h; exact .inr ⟨i, rfl, execFault_of_exec h⟩
    | nopUnknown => rw [step_nopUnknown hs hf hc] at h; cases h
    | illegal => rw [step_illegal hs hf hc] at h; cases h; exact .inl ⟨rfl, rfl⟩

/-- Settles O24: the causes of `step_fault` and `ExecFault`, with the word in IR and the registers from before the
step; the trap word runs the trap, which has no fault. -/
theorem faultsComeFromTheFiveCauses : Obligations.FaultsComeFromTheFiveCauses := by
  unfold Obligations.FaultsComeFromTheFiveCauses
  intro s f h
  obtain ⟨hs, hfetch | ⟨w, hf, hcause⟩⟩ := step_fault h
  · exact ⟨hs, .inl hfetch⟩
  · have hw : w ≠ Config.trapWord := by
      rintro rfl
      rw [step_trapWord hs hf] at h
      cases h
    refine ⟨hs, .inr ⟨w, hf, hw, hcause.imp_right ?_⟩⟩
    rintro ⟨i, hc, hexec⟩
    refine ⟨i, hc, ?_⟩
    cases hexec with
    | width hi => exact .inl ⟨hi, rfl⟩
    | overflow hi hp h1 h2 =>
      rw [encode_of_decodeWord (decodeWord_of_classify hc)] at h1 h2
      exact .inr (.inl ⟨hi, hp, h1, h2, rfl⟩)
    | range a n ha hok =>
      rw [loadRange_latch, storeRange_latch] at ha
      exact .inr (.inr ⟨a, n, ha, hok, rfl⟩)

end Sys2Proof.Machine
end

/-! PROOFS. The statements about runs (70_reset_and_hazards.md): that a stopped core rests where it is (R168), that the
invariant holds at reset, after a launch and from there on, and what a launch leaves in memory (R178, R179). -/
section
namespace Sys2Proof.Machine

/-! ### Runs as iteration (R168, R187) -/

theorem restAfter_eq_iterate (k : Nat) (s : State) : State.restAfter k s = State.rest^[k] s := by
  induction k generalizing s with
  | zero => rfl
  | succ k ih => exact ih s.rest

theorem rest_of_stopped {s : State} (hs : s.status ≠ .running) : s.rest = s := by
  unfold State.rest
  split
  next t h => exact absurd h (step_ne_next_of_stopped hs t)
  next f h => exact absurd h (step_ne_fault_of_stopped hs f)
  next => rfl

theorem restAfter_of_stopped {s : State} (hs : s.status ≠ .running) (k : Nat) : State.restAfter k s = s := by
  rw [restAfter_eq_iterate]
  exact Function.iterate_fixed (rest_of_stopped hs) k

/-- Settles O22: a stopped core takes no step, so it is a fixed point of `State.rest`. -/
theorem stoppedCoreTakesNoStep : Obligations.StoppedCoreTakesNoStep := by
  unfold Obligations.StoppedCoreTakesNoStep
  exact fun s hs => ⟨step_ne_next_of_stopped hs, step_ne_fault_of_stopped hs, restAfter_of_stopped hs⟩

theorem restAfter_add (j k : Nat) (s : State) :
    State.restAfter (j + k) s = State.restAfter j (State.restAfter k s) := by
  simp only [restAfter_eq_iterate, Function.iterate_add_apply]

/-- Once stopped, a run stays in the state it stopped in. -/
theorem restAfter_eq_of_stopped_of_le {s : State} {k j : Nat} (hk : (State.restAfter k s).status ≠ .running)
    (hkj : k ≤ j) : State.restAfter j s = State.restAfter k s := by
  rw [← Nat.sub_add_cancel hkj, restAfter_add, restAfter_of_stopped hk]

/-- Settles O33: both ends would be the state the run stopped in, whichever came first. -/
theorem normalEndExcludesFault : Obligations.NormalEndExcludesFault := by
  unfold Obligations.NormalEndExcludesFault
  rintro s ⟨k, hk⟩ f ⟨j, hj⟩
  obtain hle | hle := Nat.le_total k j
  · rw [restAfter_eq_of_stopped_of_le (by rw [hk]; nofun) hle, hk] at hj
    cases hj
  · rw [restAfter_eq_of_stopped_of_le (by rw [hj]; nofun) hle, hj] at hk
    cases hk

/-! ### The invariant along a run -/

/-- Where the core rests after a fault differs only in IR and the status, which the invariant does not read. -/
theorem rest_inv {s : State} (h : s.inv = true) : s.rest.inv = true := by
  cases hstep : step s with
  | next t =>
    have hrest : s.rest = t := by rw [State.rest, hstep]
    rw [hrest]
    exact stepKeepsInvariant s t h hstep
  | fault f =>
    obtain ⟨w, hrest⟩ := exists_rest_eq_faulted_of_fault hstep
    rw [hrest]
    exact h
  | refused r =>
    have hrest : s.rest = s := by rw [State.rest, hstep]
    rwa [hrest]

theorem restAfter_inv {s : State} (h : s.inv = true) (k : Nat) : (State.restAfter k s).inv = true := by
  induction k generalizing s with
  | zero => exact h
  | succ k ih => exact ih (rest_inv h)

theorem resetWith_inv {p : Params} (hp : p.wf = true) : (State.resetWith p).inv = true :=
  (inv_iff _).mpr ⟨hp, Memory.wf_nil, rfl, by simp, rfl⟩

/-- Settles O2: reset memory is the empty list, pc is 0 and skip is clear. -/
theorem resetMeetsInvariant : Obligations.ResetMeetsInvariant := by
  unfold Obligations.ResetMeetsInvariant
  exact ⟨fun _ hp => resetWith_inv hp, resetWith_inv resetParams_wf⟩

/-- A load changes only memory, so its invariant is that of the loaded memory. -/
theorem inv_of_resetWith_mem {p : Params} {s : State} (hp : p.wf = true)
    (heq : s = { State.resetWith p with mem := s.mem }) (hwf : s.mem.wf = true)
    (hrange : Memory.inRange p s.mem = true) : s.inv = true := by
  rw [heq]
  exact (inv_iff _).mpr ⟨hp, hwf, hrange, by simp, rfl⟩

/-! ### Pairs of address and word (R178) -/

theorem launch_eq_some {p : Params} {image : List (Word × Word)} {s : State} (h : launch p image = some s) :
    p.wf = true ∧ loadPairs (State.resetWith p) image = some s := by
  unfold launch at h
  split at h
  · exact ⟨‹_›, h⟩
  · cases h

theorem launch_inv {p : Params} {image : List (Word × Word)} {s : State} (h : launch p image = some s) :
    s.inv = true := by
  obtain ⟨hp, hload⟩ := launch_eq_some h
  obtain ⟨heq, hwf, hrange, -⟩ := loadPairs_eq_some Memory.wf_nil hload
  exact inv_of_resetWith_mem hp heq hwf (hrange rfl)

/-- Settles O27: a launch starts in the invariant, and every step keeps it. -/
theorem everyRunKeepsInvariant : Obligations.EveryRunKeepsInvariant := by
  unfold Obligations.EveryRunKeepsInvariant
  exact fun _ _ _ h k => restAfter_inv (launch_inv h) k

/-- After the load of a pair that no later pair overlaps at byte k, that byte is the pair's. -/
theorem peek_of_loadPairs_last {before after : List (Word × Word)} {a w : Word} {k : Nat} {s u : State}
    (hm : s.mem.wf = true) (h : loadPairs s (before ++ (a, w) :: after) = some u) (hk : k < 4)
    (hlast : ∀ c ∈ after, ¬ (c.1.toNat ≤ a.toNat + k ∧ a.toNat + k < c.1.toNat + 4)) :
    u.mem.peek (a.toNat + k) = w.extractLsb' (8 * k) 8 := by
  obtain ⟨t, hbefore, hrest⟩ := loadPairs_append_eq_some h
  obtain ⟨-, htwf, -, -⟩ := loadPairs_eq_some hm hbefore
  unfold loadPairs at hrest
  split at hrest
  next v hpair =>
    obtain ⟨-, rfl⟩ := loadPair_eq_some hpair
    obtain ⟨-, -, -, hkeep⟩ := loadPairs_eq_some (Memory.writeLe_wf htwf _ _ _) hrest
    rw [hkeep _ hlast]
    exact Memory.peek_writeLe_inside htwf _ _ hk
  next => cases hrest

/-- Settles O51: a load of pairs changes only memory, a byte is what the last pair over it says, and one that no pair
covers is as at reset. -/
theorem launchWritesPairsInOrder : Obligations.LaunchWritesPairsInOrder := by
  unfold Obligations.LaunchWritesPairsInOrder
  intro p image s h
  obtain ⟨-, hload⟩ := launch_eq_some h
  obtain ⟨heq, -, -, hkeep⟩ := loadPairs_eq_some Memory.wf_nil hload
  refine ⟨heq, fun before after a w k himage hk hlast => ?_, fun b hb => ?_⟩
  · rw [himage] at hload
    exact peek_of_loadPairs_last Memory.wf_nil hload hk hlast
  · rw [hkeep b hb, State.resetWith_peek]

/-- Settles O52: a load fails exactly at a pair that fails the check, which is R179's where misaligned accesses are
allowed. -/
theorem launchRefusesInvalidPairs : Obligations.LaunchRefusesInvalidPairs := by
  unfold Obligations.LaunchRefusesInvalidPairs
  refine fun p image => ⟨?_, fun hp hallow hnone => ?_⟩
  · rintro ⟨c, hc, hinvalid⟩
    have hcheck : accessOk p c.1 4 = false := by simp [accessOk, hinvalid]
    have hload : loadPairs (State.resetWith p) image = none := loadPairs_eq_none_iff.mpr ⟨c, hc, hcheck⟩
    rw [launch, hload, ite_self]
  · rw [launch, if_pos hp] at hnone
    obtain ⟨c, hc, hcheck⟩ := loadPairs_eq_none_iff.mp hnone
    exact ⟨c, hc, by simpa [accessOk, hallow] using hcheck⟩

/-! ### Single bytes (R178) -/

theorem launchBytes_eq_some {p : Params} {image : List (Word × Byte)} {s : State}
    (h : launchBytes p image = some s) : p.wf = true ∧ loadByteList (State.resetWith p) image = some s := by
  unfold launchBytes at h
  split at h
  · exact ⟨‹_›, h⟩
  · cases h

theorem peek_of_loadByteList_last {before after : List (Word × Byte)} {a : Word} {v : Byte} {s u : State}
    (hm : s.mem.wf = true) (h : loadByteList s (before ++ (a, v) :: after) = some u)
    (hlast : ∀ c ∈ after, c.1 ≠ a) : u.mem.peek a.toNat = v := by
  obtain ⟨t, hbefore, hrest⟩ := loadByteList_append_eq_some h
  obtain ⟨-, htwf, -, -⟩ := loadByteList_eq_some hm hbefore
  unfold loadByteList at hrest
  split at hrest
  next t' hcell =>
    obtain ⟨-, rfl⟩ := loadByte_eq_some hcell
    obtain ⟨-, -, -, hkeep⟩ := loadByteList_eq_some (Memory.poke_wf htwf _ _) hrest
    rw [hkeep _ fun c hc hca => hlast c hc (BitVec.eq_of_toNat_eq hca)]
    exact Memory.peek_poke_self htwf _ _
  next => cases hrest

/-- Settles O53, as O51 does for pairs: only memory changes and stays in the invariant, a byte is what its last cell
says, and one that no cell has is as at reset. -/
theorem byteImageLaunchSetsBytes : Obligations.ByteImageLaunchSetsBytes := by
  unfold Obligations.ByteImageLaunchSetsBytes
  intro p image s h
  obtain ⟨hp, hload⟩ := launchBytes_eq_some h
  obtain ⟨heq, hwf, hrange, hkeep⟩ := loadByteList_eq_some Memory.wf_nil hload
  have hinv : s.inv = true := inv_of_resetWith_mem hp heq hwf (hrange rfl)
  refine ⟨heq, hinv, fun before after a v himage hlast => ?_, fun b hb => ?_⟩
  · rw [himage] at hload
    exact peek_of_loadByteList_last Memory.wf_nil hload hlast
  · rw [hkeep b hb, State.resetWith_peek]

end Sys2Proof.Machine
end

/-! PROOFS. The statements about what the host side reads of a halted core (60_exceptions.md R160, R161). -/
section
namespace Sys2Proof.Machine

/-! ### The snapshot (R160) -/

theorem mem_snapshot_iff (s : State) (x : Word × Word) :
    x ∈ s.snapshot ↔ ∃ k, k < s.params.dataSpan / 4 ∧ x.1 = dataWordAddress k ∧ s.memRead x.1 4 = .ok x.2
      ∧ x.2 ≠ 0 := by
  simp only [State.snapshot, List.mem_filterMap, List.mem_range, State.snapshotLine_eq_some_iff]

/-- The words of the grid lie below DATA_SPAN, a multiple of 4. -/
theorem lt_dataSpan_div_four_iff {p : Params} (hp : p.wf = true) (k : Nat) :
    k < p.dataSpan / 4 ↔ 4 * k < p.dataSpan := by
  rw [wf_params_iff] at hp
  omega

/-- The lines come in the order of the grid, whose addresses rise without wrapping. -/
theorem snapshot_pairwise_lt {s : State} (hp : s.params.wf = true) :
    s.snapshot.Pairwise fun x y => x.1.toNat < y.1.toNat := by
  rw [State.snapshot, List.pairwise_filterMap]
  refine List.pairwise_lt_range.imp_of_mem fun {j k} hj hk hjk x hx y hy => ?_
  rw [List.mem_range, lt_dataSpan_div_four_iff hp] at hj hk
  obtain ⟨hxa, -⟩ := (State.snapshotLine_eq_some_iff s j x).mp hx
  obtain ⟨hya, -⟩ := (State.snapshotLine_eq_some_iff s k y).mp hy
  rw [hxa, hya, dataWordAddress_toNat hp hj, dataWordAddress_toNat hp hk]
  omega

/-- Settles O54: a line of the snapshot is a word of the grid that is not 0, and the lines are in the grid's order. -/
theorem snapshotListsNonzeroWords : Obligations.SnapshotListsNonzeroWords := by
  unfold Obligations.SnapshotListsNonzeroWords
  refine fun s hp => ⟨fun a v => ?_, snapshot_pairwise_lt hp⟩
  simp only [mem_snapshot_iff, lt_dataSpan_div_four_iff hp]
  exact Iff.rfl

/-! ### The dump (R161) -/

theorem dump_registers_getElem? (s : State) (r : Reg) :
    s.dump.registers[r.toNat]? = some (s.reg r).toInt := by
  have hr : r.toNat < 32 := r.isLt
  simp [State.dump, hr]

theorem dump_dataWords_getElem? (s : State) {k : Nat} (hk : k < s.params.dumpWords) :
    s.dump.dataWords[k]? = some (s.dataWord k) := by
  simp [State.dump, hk]

/-- Settles O55: both lists are a map over the indices in order. -/
theorem dumpListsRegistersThenWords : Obligations.DumpListsRegistersThenWords := by
  unfold Obligations.DumpListsRegistersThenWords
  refine fun s => ⟨by simp [State.dump], by simp [State.dump], dump_registers_getElem? s, fun k hk => ?_⟩
  rw [dump_dataWords_getElem? s hk]
  rfl

end Sys2Proof.Machine
end

/-! PROOFS. The statement that a fetch sees the store before it (70_reset_and_hazards.md R183), and the one about the
latch that jumps leave alone (log 5). -/
section
namespace Sys2Proof.Machine

/-! ### The fetch after a store (R183) -/

/-- A store that completes passed its check. -/
theorem accessOk_of_execStore_next {n : Width} {rs1 rs2 : Reg} {imm : BitVec 12} {s t : State}
    (h : execStore n rs1 rs2 imm s = .next t) :
    accessOk s.params (effectiveAddress (s.reg rs1) (immS imm)) n.bytes = true := by
  by_contra hno
  rw [execStore_error (Bool.eq_false_of_not_eq_true hno)] at h
  cases h

/-- Byte k of a fetched word is the byte at pc + k. -/
theorem extractLsb'_of_fetchRead {s : State} {w : Word} (h : s.fetchRead = .ok w) {k : Nat} (hk : k < 4) :
    w.extractLsb' (8 * k) 8 = s.mem.peek (s.pc.toNat + k) := by
  obtain ⟨-, rfl⟩ := State.memRead_eq_ok ((fetchReadIsMemReadAtPc s).1 w |>.mp h)
  exact Memory.extractLsb'_readLe s.mem s.pc.toNat le_rfl hk

/-- R183 at each width: the fetch reads memory as the store left it. -/
theorem fetchRead_after_execStore {n : Width} {rs1 rs2 : Reg} {imm : BitVec 12} {s t : State} {ea : Word}
    (hm : s.mem.wf = true) (hea : ea = s.reg rs1 + BitVec.ofInt 32 imm.toInt)
    (h : execStore n rs1 rs2 imm s = .next t) :
    t.pc = s.pc + 4 ∧ ∀ w, t.fetchRead = .ok w → ∀ k, k < 4 →
      w.extractLsb' (8 * k) 8 =
        if ea.toNat ≤ t.pc.toNat + k ∧ t.pc.toNat + k < ea.toNat + n.bytes
        then (s.reg rs2).extractLsb' (8 * (t.pc.toNat + k - ea.toNat)) 8
        else s.mem.peek (t.pc.toNat + k) := by
  obtain rfl : ea = effectiveAddress (s.reg rs1) (immS imm) := hea.trans (effectiveAddress_immS _ _).symm
  obtain ⟨u, hu, hinside, houtside, -, -, -, ⟨hpc, -⟩⟩ :=
    execStore_bytes (rs2 := rs2) hm rfl (accessOk_of_execStore_next h)
  rw [h] at hu
  cases hu
  refine ⟨hpc, fun w hw k hk => ?_⟩
  rw [extractLsb'_of_fetchRead hw hk]
  split
  next hin =>
    rw [← hinside _ (by omega), Nat.add_sub_cancel' hin.1]
  next hout => exact houtside _ (by omega)

/-- Settles O45: the rule above at the three widths. -/
theorem nextFetchSeesTheStore : Obligations.NextFetchSeesTheStore := by
  unfold Obligations.NextFetchSeesTheStore
  rintro s t i rs1 rs2 imm ea n hm (⟨rfl, rfl⟩ | ⟨rfl, rfl⟩ | ⟨rfl, rfl⟩) hea h
  · exact fetchRead_after_execStore (n := .byte) hm hea h
  · exact fetchRead_after_execStore (n := .half) hm hea h
  · exact fetchRead_after_execStore (n := .word) hm hea h

/-! ### alu_result and the jumps (log 5) -/

/-- Settles O50: neither the staging, the link, the jump nor the retirement writes alu_result. -/
theorem jumpsKeepAluResult : Obligations.JumpsKeepAluResult := by
  unfold Obligations.JumpsKeepAluResult
  exact fun s rd rs1 imm off => ⟨⟨_, rfl, by simp⟩, ⟨_, rfl, by simp⟩⟩

end Sys2Proof.Machine
end
